-- ==== Sys2Proof/Word.lean ====
section
/-! DEFINITION. The word types of the block (00_scope.md R9): unsigned integers of 8, 16 and 32 bits. Bit 0 is the
least significant bit (20_memory.md R53). -/

namespace Sys2Proof

/-- `u8`: one byte (R9). -/
abbrev Byte := BitVec 8

/-- `u16` (R9). -/
abbrev Half := BitVec 16

/-- `u32`, and the 32-bit pattern of an `f32` operand (R9, 10_state.md R34). -/
abbrev Word := BitVec 32

end Sys2Proof
end

