-- ==== Sys2Proof/Syntax.lean ====
section
/-! DEFINITION. The nine operations of the block (00_scope.md R6), with the operand ports of 10_state.md R21, and what else
the caller may ask of it between operations (R24, 60_exceptions.md R252). -/

namespace Sys2Proof

/-- Four `bit` operands of one port group, index 0 first (R21): `dout[0..3]`, `pwr[0..3]` (3.3V, 5.0V, 12V-5A, 12V-1.5A) or
`led[0..3]` (red-LED1, green-LED1, red-LED2, green-LED2). -/
structure Bits4 where
  b0 : Bool
  b1 : Bool
  b2 : Bool
  b3 : Bool
deriving DecidableEq, Repr

/-- Where a `DECODE` takes its residue from: the two uses of R24. -/
inductive ResidueSource where
  /-- Carried use, `DECODE(newBytes)`: the residue is taken from `RES`, and `RES` takes the new one. -/
  | carried
  /-- Function use, `decode(newBytes, residue)`: any finite byte sequence; `RES` is neither read nor written (R198). -/
  | supplied (residue : List Byte)
deriving DecidableEq, Repr

/-- The request: a value of a nine-constructor type (D28), one constructor per row of opcode_table.json. -/
inductive Instr where
  /-- `CHECKSUM(buf)` (R120). -/
  | checksum (buf : List Byte)
  /-- `BaseControl(speed:u16, radius:u16)` (R142). -/
  | baseControl (speed radius : Half)
  /-- `Sound(freq:u8, amp:u8, duration:u8)` (R144). -/
  | sound (freq amp duration : Byte)
  /-- `SoundSequence(seq:u8)` (R147). -/
  | soundSequence (seq : Byte)
  /-- `RequestExtra(hwVer:bit, fwVer:bit, udid:bit)` (R150). -/
  | requestExtra (hwVer fwVer udid : Bool)
  /-- `GeneralPurposeOutput(dout[0..3], pwr[0..3], led[0..3])` (R152). -/
  | generalPurposeOutput (dout pwr led : Bits4)
  /-- `SetControllerGain(userConfigured:bit, p:u32, i:f32, d:u32)` (R155); `i` is a binary32 pattern (R159). -/
  | setControllerGain (userConfigured : Bool) (p i d : Word)
  /-- `GetControllerGain()` (R160). -/
  | getControllerGain
  /-- `DECODE(newBytes)` and `decode(newBytes, residue)` (R182, R24). -/
  | decode (newBytes : List Byte) (residue : ResidueSource)
deriving DecidableEq, Repr

/-- What the caller can put to the block (R24, R252, R271). -/
inductive Request where
  /-- One of the nine operations, with its operands on the ports. -/
  | operation (i : Instr)
  /-- One of the nine operations, given by a byte image the block decodes first. The images are the model's own, since
  `OPSEL` is open. DESIGN CHOICE (log 3). -/
  | image (bytes : List Byte)
  /-- `RES <- v` between operations, for `|v| <= RES_MAX` (R24). -/
  | loadResidue (v : List Byte)
  /-- `RES` read between operations (R24). -/
  | readResidue
  /-- Reset (70_reset_and_hazards.md R270). -/
  | reset
deriving DecidableEq, Repr

end Sys2Proof
end

