-- ==== Sys2Proof/Machine/State.lean ====
section
/-! DEFINITION. The state of the block (10_state.md): the residue register, the result ports, and the requests the caller has
put to it. Plain data. -/

namespace Sys2Proof.Machine

/-- "a decoded inbound frame (id + payload)" (00_scope.md R11, 42_decoder.md R195). -/
structure FeedbackFrame where
  id : Byte
  payload : List Byte
deriving DecidableEq, Repr

/-- The five named conditions (60_exceptions.md R230). They are fields of an operation's result and transfer no control
(R240). -/
inductive Condition where
  /-- Raised by `Sound` on a zero operand (R231). -/
  | invalidInput
  /-- Raised by `DECODE` when the new residue is not empty (R233). -/
  | incompleteFrame
  /-- Raised by `DECODE`, once per complete candidate whose checksum differs (R234). -/
  | checksumMismatch
  /-- Raised by `DECODE` when it delivers no frame (R235). -/
  | noCompleteFrame
  /-- Raised by `DECODE`, once per marker followed by a Length below 3 (R236). -/
  | badLength
deriving DecidableEq, Repr

/-- The result ports of `DECODE` (R21, R32, R198). -/
structure DecodeResult where
  frames : List FeedbackFrame
  newResidue : List Byte
  mismatches : Nat
  badLengths : Nat
  noCompleteFrame : Bool
  incompleteFrame : Bool
deriving DecidableEq, Repr

/-- What stands on the result ports: the results of the operation that completed last (R21, R32). That they keep standing
there until the next one is the model's choice; no operation reads them. DESIGN CHOICE (log 2). -/
inductive Result where
  /-- No operation has completed since reset or since `RES` was loaded (R36: outputs only, no reset value). -/
  | idle
  /-- `csum` of a `CHECKSUM` (R120). -/
  | checksum (csum : Byte)
  /-- `status = Ok` and the `frame` of an encoder operation (R140). -/
  | encoded (frame : List Byte)
  /-- `status = InvalidInput`, and no frame (R141, R231). -/
  | invalidInput
  /-- The results of a `DECODE` (R198). -/
  | decoded (r : DecodeResult)
  /-- `RES`, read by the caller between operations (R24). -/
  | residue (bytes : List Byte)
deriving DecidableEq, Repr

/-- The machine. -/
structure State where
  /-- The residue register `RES`, the only state that crosses operations (R22). -/
  res : List Byte
  /-- The result ports (R21, R32; log 2). -/
  result : Result
  /-- What the caller asks for next, the first first: the model's stand-in for the caller (R25, R62; log 1). It is no queue
  of the block, which has none (R4). -/
  requests : List Request
deriving DecidableEq, Repr

/-- There is no fault: "No condition in this core is fatal to the process" (R230), and `DECODE` must have "no fault, refusal
or stuck outcome" (R238). -/
inductive Fault
deriving DecidableEq, Repr

/-- Why the model turns a request away. -/
inductive Refusal where
  /-- Raised by `exec` for an instruction without a meaning. No arm raises it. Safe. -/
  | notModelled (mnemonic : String)
  /-- Raised by a step that serves a load of `RES` with more than `RES_MAX` bytes: R24 gives the load only for
  `|v| <= RES_MAX`, and the register holds no more (R22). Safe (log 7). -/
  | residueTooLong
  /-- Raised by a step that serves a request image that names none of the nine operations (log 3). Safe. -/
  | unknownRequest
deriving DecidableEq, Repr

/-- Reset: `RES <- []`, "and nothing else, because nothing else persists between operations" (70_reset_and_hazards.md R270,
10_state.md R36). The result ports are idle and no request is there. DESIGN CHOICE (log 1, log 2). -/
def State.reset : State :=
  { res := [], result := .idle, requests := [] }

end Sys2Proof.Machine
end

