-- ==== Sys2Proof/Machine/Flags.lean ====
section
/-! DEFINITION. The condition results of an operation (10_state.md R32, 60_exceptions.md R230 to R237). The block has no
condition-code register: these are computed with the results and describe one operation. -/

namespace Sys2Proof.Machine

/-- `noCompleteFrame`: set exactly when the call delivers no frame (R235, R198). -/
def noCompleteFrameBit (frames : List FeedbackFrame) : Bool :=
  frames.isEmpty

/-- `incompleteFrame`: set exactly when the new residue is not empty (R233, R198). -/
def incompleteFrameBit (newResidue : List Byte) : Bool :=
  !newResidue.isEmpty

/-- The encoder's `status` port: 0 for Ok, 1 for InvalidInput (R237); the other operations have no `status`. -/
def Result.statusCode : Result → Option (BitVec 1)
  | .idle => none
  | .checksum _ => none
  | .encoded _ => some 0
  | .invalidInput => some 1
  | .decoded _ => none
  | .residue _ => none

/-- Whether a `DECODE` reports a decoder condition (R32, R233 to R236). `InvalidInput` is the encoder's. -/
def DecodeResult.reports (r : DecodeResult) : Condition → Bool
  | .invalidInput => false
  | .incompleteFrame => r.incompleteFrame
  | .checksumMismatch => decide (0 < r.mismatches)
  | .noCompleteFrame => r.noCompleteFrame
  | .badLength => decide (0 < r.badLengths)

/-- The decoder's `cond` port (R237): bit 0 `noCompleteFrame`, bit 1 `incompleteFrame`, bit 2 a mismatch was seen, bit 3 a
bad length was seen. -/
def DecodeResult.cond (r : DecodeResult) : BitVec 4 :=
  BitVec.ofBool (r.reports .badLength) ++ BitVec.ofBool (r.reports .checksumMismatch) ++
    BitVec.ofBool (r.reports .incompleteFrame) ++ BitVec.ofBool (r.reports .noCompleteFrame)

end Sys2Proof.Machine
end

