-- ==== Sys2Proof/Config.lean ====
section
/-! DEFINITION. What the spec fixes for every machine: the constants of 00_scope.md R7, the parameters of R8 with the value
its rules give them, and the command table `GRAMMAR` of 30_encoding.md R88. All of it is hardwired and read-only
(10_state.md R33). -/

namespace Sys2Proof

namespace Config

/-- Frame offset 0 (R7, R80). -/
def marker0 : Byte := 0xAA
/-- Frame offset 1 (R7, R80). -/
def marker1 : Byte := 0x55
/-- Offset of the Length byte (R7). -/
def offLength : Nat := 2
/-- Offset of the Id byte (R7). -/
def offId : Nat := 3
/-- Offset of the Size byte (R7). -/
def offSize : Nat := 4
/-- First payload byte, and first byte the checksum folds: `OFF_PAYLOAD` = `CSUM_START` (R7). -/
def offPayload : Nat := 5
/-- Bytes of a frame that its Length does not count (R7, 42_decoder.md R189). -/
def hdrLen : Nat := 3
/-- The least Length that can describe a frame: Id, Size and Checksum (R81, R190). -/
def minLength : Nat := 3

/-- `N_STREAMS`: decoder contexts, each with its own residue (R8, D3). `State` holds this one. -/
def nStreams : Nat := 1
/-- `RES_MAX`: the longest residue, in bytes (R8, R22, R203). -/
def resMax : Nat := 257
/-- `FRAME_MAX`: the longest candidate frame, in bytes (R8, R85). -/
def frameMax : Nat := 258

/-- The multiplier of the P and D gain words (R7, R156, R158). -/
def gainScale : Word := 1000
/-- The P word sent for `p = 0` (R156). -/
def pFallback : Word := 1000
/-- The I word sent for `i` outside the window (R157). -/
def iFallback : Word := 100
/-- The D word sent for `d = 0` (R158). -/
def dFallback : Word := 2000
/-- `I_NAN_WORD`: the I word sent for a NaN (R8, R157, R159, D11; log 10). -/
def iNanWord : Word := 0
/-- `c_lo`: the binary32 number nearest 0.1 (R157, D10; log 10). -/
def iWindowLow : Word := 0x3DCCCCCD
/-- `c_hi` = 32000.0 in binary32 (R157). -/
def iWindowHigh : Word := 0x46FA0000
/-- `k` = 1000.0 in binary32 (R157). -/
def iScale : Word := 0x447A0000
/-- The payload byte of `GetControllerGain`, "a request sentinel" (R7, R95). -/
def getGainPayload : Byte := 0xFF

/-- The third byte of a request image that selects `DECODE` in carried use. The spec leaves `OPSEL` open (R8, D28, U21);
Length values below 3 head no frame (R101), so these three codes clash with no command's header.
DESIGN CHOICE (log 3). -/
def selDecodeCarried : Byte := 0x00
/-- The same for `DECODE` in function use. DESIGN CHOICE (log 3). -/
def selDecodeSupplied : Byte := 0x01
/-- The same for `CHECKSUM`. DESIGN CHOICE (log 3). -/
def selChecksum : Byte := 0x02

end Config

/-- The seven commands the encoder can build (R87): a closed set (R101). -/
inductive Command where
  | baseControl
  | sound
  | soundSequence
  | requestExtra
  | generalPurposeOutput
  | setControllerGain
  | getControllerGain
deriving DecidableEq, Repr

/-- One row of `GRAMMAR` (R88): the header constants of a command. -/
structure GrammarRow where
  id : Byte
  length : Byte
  size : Byte
deriving DecidableEq, Repr

/-- The table `GRAMMAR` (R87, R88), the source's literal values, its doubtful ones included (R33, U8, U9). -/
def grammar : Command → GrammarRow
  | .baseControl => { id := 1, length := 7, size := 4 }
  | .sound => { id := 3, length := 6, size := 3 }
  | .soundSequence => { id := 4, length := 4, size := 1 }
  | .requestExtra => { id := 9, length := 5, size := 2 }
  | .generalPurposeOutput => { id := 12, length := 5, size := 2 }
  | .setControllerGain => { id := 13, length := 16, size := 13 }
  | .getControllerGain => { id := 14, length := 4, size := 1 }

/-- The seven commands in the order of R88. -/
def Command.all : List Command :=
  [.baseControl, .sound, .soundSequence, .requestExtra, .generalPurposeOutput, .setControllerGain, .getControllerGain]

end Sys2Proof
end

