-- ==== Sys2Proof/Machine/Binary32.lean ====
section
/-! DEFINITION. The three floating-point actions of the block (41_encoder.md R159): ordered comparison, one product rounded to
nearest with ties to even, truncation to an integer. Operands are IEEE 754 binary32 patterns (R159, D10; log 10). Values
are exact: a finite number is an integer significand times a power of two. -/

namespace Sys2Proof.Machine

/-- What a binary32 pattern stands for (R159). -/
inductive F32Value where
  | nan
  | infinite (negative : Bool)
  /-- The number `mant * 2 ^ exp`, negated when `negative`. Zero and subnormals are among these. -/
  | finite (negative : Bool) (mant : Nat) (exp : Int)
deriving DecidableEq, Repr

/-- Reading a pattern: bit 31 sign, bits 30..23 biased exponent (bias 127), bits 22..0 fraction; exponent 255 is a NaN or an
infinity, exponent 0 zero or a subnormal (R159). -/
def f32Value (x : Word) : F32Value :=
  let negative := x.getLsbD 31
  let biased := (x.extractLsb' 23 8).toNat
  let fraction := (x.extractLsb' 0 23).toNat
  if biased = 255 then
    if fraction = 0 then .infinite negative else .nan
  else if biased = 0 then .finite negative fraction (-149)
  else .finite negative (2 ^ 23 + fraction) ((biased : Int) - 150)

/-- A magnitude with its sign. -/
def signedMant (negative : Bool) (mant : Nat) : Int :=
  if negative then -(mant : Int) else (mant : Int)

/-- `a * 2 ^ ea < b * 2 ^ eb`, both brought to the smaller exponent. -/
def scaledLt (a : Int) (ea : Int) (b : Int) (eb : Int) : Bool :=
  decide (a * 2 ^ (ea - min ea eb).toNat < b * 2 ^ (eb - min ea eb).toNat)

/-- The IEEE 754 ordered comparison `x < y`: false when either is a NaN; the two zeros are equal (R157, R159). -/
def f32Lt (x y : Word) : Bool :=
  match f32Value x, f32Value y with
  | .nan, _ => false
  | _, .nan => false
  | .infinite nx, .infinite ny => nx && !ny
  | .infinite nx, .finite _ _ _ => nx
  | .finite _ _ _, .infinite ny => !ny
  | .finite nx mx ex, .finite ny my ey => scaledLt (signedMant nx mx) ex (signedMant ny my) ey

/-- Rounding a significand to 24 bits, to nearest with ties to even: the rounded significand and the number of low bits given
up. The first may be `2 ^ 24`, which is exact one place higher (R157). -/
def roundToEven24 (m : Nat) : Nat × Nat :=
  let k := m.log2 + 1 - 24
  let q := m / 2 ^ k
  let r := m % 2 ^ k
  if 2 ^ k < 2 * r ∨ (2 * r = 2 ^ k ∧ q % 2 = 1) then (q + 1, k) else (q, k)

/-- The binary32 product of two positive finite numbers, as significand and exponent. Exact for every product in the range
of normal binary32 numbers; the only product the block forms lies between 100.0 and 32000000.0 (R157). -/
def f32Product (mx : Nat) (ex : Int) (my : Nat) (ey : Int) : Nat × Int :=
  ((roundToEven24 (mx * my)).1, ex + ey + ((roundToEven24 (mx * my)).2 : Int))

/-- The integer part of `m * 2 ^ e`: truncation toward zero (R157). -/
def truncateToNat (m : Nat) (e : Int) : Nat :=
  if 0 ≤ e then m * 2 ^ e.toNat else m / 2 ^ (-e).toNat

end Sys2Proof.Machine
end

