-- ==== Sys2Proof/Machine/Bytes.lean ====
section
/-! DEFINITION. The byte-sequence notation of 00_scope.md R9 and the access primitives of 20_memory.md R56 and R57. -/

namespace Sys2Proof.Machine

/-- `s[a..b)`: the elements of indices `a <= i < b`, empty when `a >= b` (R9). -/
def slice (s : List Byte) (a b : Nat) : List Byte :=
  (s.take b).drop a

/-- `XOR(s)`: the fold of bitwise exclusive or, `0x00` for the empty sequence (R9). -/
def xorFold (s : List Byte) : Byte :=
  s.foldl (fun acc b => acc ^^^ b) 0

/-- `le16(v) = [v[7:0], v[15:8]]` (R9, R52). -/
def le16 (v : Half) : List Byte :=
  [v.extractLsb' 0 8, v.extractLsb' 8 8]

/-- `le32(v) = [v[7:0], v[15:8], v[23:16], v[31:24]]` (R9, R52). -/
def le32 (v : Word) : List Byte :=
  [v.extractLsb' 0 8, v.extractLsb' 8 8, v.extractLsb' 16 8, v.extractLsb' 24 8]

/-- The unsigned integer whose little-endian bytes are `s`: `s[0] + 256*s[1] + ...` (R56). -/
def leValue : List Byte → Nat
  | [] => 0
  | b :: s => b.toNat + 256 * leValue s

/-- `MemRead(B, off, n)` for `n` in 1, 2, 4: the little-endian number in `B[off..off+n)`. Where `off + n > |B|` it is
undefined (R56), which is `none` here; no rule of the block reads there. -/
def memRead (B : List Byte) (off n : Nat) : Option Nat :=
  if off + n ≤ B.length then some (leValue (slice B off (off + n))) else none

/-- `B[off]`, the byte `MemRead(B, off, 1)` gives where `off < |B|` (R56; `memRead_one`). Every use tests availability
first (R56), so what it answers beyond the end reaches no result (log 17). -/
def byteAt (B : List Byte) (off : Nat) : Byte :=
  B.getD off 0

/-- `push_1(F, v)`: append one byte (R57). -/
def push1 (F : List Byte) (v : Byte) : List Byte :=
  F ++ [v]

/-- `push_2(F, v)`: append `le16(v)` (R57). -/
def push2 (F : List Byte) (v : Half) : List Byte :=
  F ++ le16 v

/-- `push_4(F, v)`: append `le32(v)` (R57). -/
def push4 (F : List Byte) (v : Word) : List Byte :=
  F ++ le32 v

/-- A `bit` operand at position `k` of a byte, 1 for true (R53, R98). -/
def bitAt (b : Bool) (k : Nat) : Byte :=
  if b then 1#8 <<< k else 0

end Sys2Proof.Machine
end

