-- ==== Sys2Proof/Machine/Operands.lean ====
section
/-! DEFINITION. Operand assembly (30_encoding.md R96 to R98): how the operands of the encoder operations become payload bytes,
with the Sound value (41_encoder.md R146) and the three gain words (R156 to R158). -/

namespace Sys2Proof.Machine

/-- The Sound value: `1 div (freq*amp)` on the exact product, as 16 bits. It is asked for only when neither operand is zero,
so the divisor is at least 1 (R146, D8). -/
def soundValue (freq amp : Byte) : Half :=
  BitVec.ofNat 16 (1 / (freq.toNat * amp.toNat))

/-- The flag byte of `RequestExtra`: bit 0 `hwVer`, bit 1 `fwVer`, bit 7 `udid`, the rest 0 (R92, R150). -/
def requestExtraFlags (hwVer fwVer udid : Bool) : Byte :=
  bitAt udid 7 ||| bitAt fwVer 1 ||| bitAt hwVer 0

/-- `byte0` of `GeneralPurposeOutput`: bits 3..0 the digital outputs, bits 7..4 the power rails (R93, R152). -/
def gpoByte0 (dout pwr : Bits4) : Byte :=
  bitAt dout.b0 0 ||| bitAt dout.b1 1 ||| bitAt dout.b2 2 ||| bitAt dout.b3 3 |||
    bitAt pwr.b0 4 ||| bitAt pwr.b1 5 ||| bitAt pwr.b2 6 ||| bitAt pwr.b3 7

/-- `byte1` of `GeneralPurposeOutput`: bits 3..0 the LEDs, bits 7..4 zero (R93, R152). -/
def gpoByte1 (led : Bits4) : Byte :=
  bitAt led.b0 0 ||| bitAt led.b1 1 ||| bitAt led.b2 2 ||| bitAt led.b3 3

/-- The `userConfigured` byte: `0x01` for 1, `0x00` for 0 (R94, R155, D5). -/
def userConfiguredByte (userConfigured : Bool) : Byte :=
  if userConfigured then 0x01 else 0x00

/-- `P_word(p)`: 1000 for zero, else `p * 1000` modulo 2^32 (R156). -/
def pWord (p : Word) : Word :=
  if p = 0 then Config.pFallback else p * Config.gainScale

/-- `D_word(d)`: 2000 for zero, else `d * 1000` modulo 2^32 (R158). -/
def dWord (d : Word) : Word :=
  if d = 0 then Config.dFallback else d * Config.gainScale

/-- The binary32 product of `x` and `k` = 1000.0, truncated toward zero, for a positive finite `x` (R157). -/
def scaledAndTruncated (x : Word) : Word :=
  match f32Value x, f32Value Config.iScale with
  | .finite _ mx ex, .finite _ mk ek =>
    BitVec.ofNat 32 (truncateToNat (f32Product mx ex mk ek).1 (f32Product mx ex mk ek).2)
  | _, _ => Config.iFallback  -- reached by no operand: infinities and NaNs are answered before it (R157; log 17)

/-- `I_word(i)`: the NaN word for a NaN, 100 outside the window `c_lo .. c_hi`, else the truncated product (R157, R159). -/
def iWord (i : Word) : Word :=
  if f32Value i = .nan then Config.iNanWord
  else if f32Lt i Config.iWindowLow || f32Lt Config.iWindowHigh i then Config.iFallback
  else scaledAndTruncated i

end Sys2Proof.Machine
end

