-- ==== Sys2Proof/Machine/Ops.lean ====
section
/-! DEFINITION. The named operations the nine meanings share: the checksum (40_checksum.md), the frame builder (41_encoder.md
R140), raising a condition, delivering results, and what the caller does to `RES` between operations (10_state.md R24). The
block has no exceptions to take or return from (60_exceptions.md R240, R241): raising a condition writes a result. -/

namespace Sys2Proof.Machine

/-- `CHECKSUM(buf)` as a function: the fold of the payload region only (R120, R123, U7). -/
def checksum (buf : List Byte) : Byte :=
  if buf.length < 5 then 0x00 else xorFold (slice buf Config.offPayload buf.length)

/-- The two transient registers of the streaming checksum (R30, R124): an 8-bit accumulator and a 3-bit position counter that
stops at 5. -/
structure Csu where
  acc : Byte
  idx : BitVec 3
deriving DecidableEq, Repr

/-- Both registers are cleared at the start of every frame (R124). -/
def csuClear : Csu :=
  { acc := 0, idx := 0 }

/-- One byte passes (R124): fold it from position 5 on, count it below 5. -/
def csuFeed (c : Csu) (b : Byte) : Csu :=
  { acc := if 5 ≤ c.idx.toNat then c.acc ^^^ b else c.acc,
    idx := if c.idx.toNat < 5 then c.idx + 1 else c.idx }

/-- The skeleton of every encoder operation (R140): the markers and the three constants of the command's row of `GRAMMAR`, the
payload, then the checksum of what was pushed (R121). Length and Size come from the table, whatever the payload's length. -/
def build (c : Command) (payload : List Byte) : List Byte :=
  let F := push1 (push1 [] Config.marker0) Config.marker1
  let F := push1 (push1 (push1 F (grammar c).length) (grammar c).id) (grammar c).size
  let F := payload.foldl push1 F
  push1 F (checksum F)

/-- The operation ends with the given results on the result ports (R21); nothing else changes. -/
def deliver (r : Result) (s : State) : State :=
  { s with result := r }

/-- `RES <- v` (R22). -/
def writeResidue (v : List Byte) (s : State) : State :=
  { s with res := v }

/-- `RES` as an operation reads it (R22). -/
def readResidue (s : State) : List Byte :=
  s.res

/-- An encoder operation ends: with a frame, or with its condition and no bytes at all (R141, R231). -/
def deliverEncoder (r : Except Condition (List Byte)) (s : State) : Host.Outcome State Fault Refusal :=
  match r with
  | .ok frame => .next (deliver (.encoded frame) s)
  | .error _ => .next (deliver .invalidInput s)

/-- The caller loads `RES` between operations (R24); more than `RES_MAX` bytes are turned away (log 7). A load is no
operation and leaves the result ports idle (log 9). -/
def loadResidue (v : List Byte) (s : State) : Host.Outcome State Fault Refusal :=
  if v.length ≤ Config.resMax then .next (deliver .idle (writeResidue v s)) else .refused .residueTooLong

/-- The caller reads `RES` between operations (R24). -/
def readOutResidue (s : State) : State :=
  deliver (.residue (readResidue s)) s

/-- Reset of the block (R270). What the caller still has to ask is the caller's and stays (log 9). -/
def resetBlock (s : State) : State :=
  { State.reset with requests := s.requests }

end Sys2Proof.Machine
end

