-- ==== Sys2Proof/Machine/ChecksumUnit.lean ====
section
/-! DEFINITION. The ChecksumUnit's one operation (40_checksum.md). -/

namespace Sys2Proof.Machine

/-- `CHECKSUM(buf) -> csum` (R120): total on every byte sequence, no condition, no state. -/
def execChecksum (buf : List Byte) (s : State) : Host.Outcome State Fault Refusal :=
  .next (deliver (.checksum (checksum buf)) s)

end Sys2Proof.Machine
end

