-- ==== Sys2Proof/Machine/FrameEncoder.lean ====
section
/-! DEFINITION. The FrameEncoder's seven operations (41_encoder.md): the frame each builds as a pure function of its operands
(R141), and its meaning, which delivers that frame. None reads or writes `RES` (R51, R141). -/

namespace Sys2Proof.Machine

/-- `BaseControl` (R142): payload "speed low, speed high, radius low, radius high". -/
def baseControlFrame (speed radius : Half) : List Byte :=
  build .baseControl (push2 (push2 [] speed) radius)

/-- `Sound` (R144): the three operands are tested first (R145); any zero among them is `InvalidInput`. -/
def soundFrame (freq amp duration : Byte) : Except Condition (List Byte) :=
  if freq = 0 ∨ amp = 0 ∨ duration = 0 then .error .invalidInput
  else .ok (build .sound (push1 (push2 [] (soundValue freq amp)) duration))

/-- `SoundSequence` (R147). -/
def soundSequenceFrame (seq : Byte) : List Byte :=
  build .soundSequence [seq]

/-- `RequestExtra` (R150): ONE payload byte, though the table's Size is 2 (C4, U8). -/
def requestExtraFrame (hwVer fwVer udid : Bool) : List Byte :=
  build .requestExtra [requestExtraFlags hwVer fwVer udid]

/-- `GeneralPurposeOutput` (R152). -/
def generalPurposeOutputFrame (dout pwr led : Bits4) : List Byte :=
  build .generalPurposeOutput [gpoByte0 dout pwr, gpoByte1 led]

/-- `SetControllerGain` (R155): `[uc] ++ le32(P) ++ le32(I) ++ le32(D)`. -/
def setControllerGainFrame (userConfigured : Bool) (p i d : Word) : List Byte :=
  build .setControllerGain
    (push4 (push4 (push4 (push1 [] (userConfiguredByte userConfigured)) (pWord p)) (iWord i)) (dWord d))

/-- `GetControllerGain` (R160): constant. -/
def getControllerGainFrame : List Byte :=
  build .getControllerGain [Config.getGainPayload]

/-- The meaning of `BaseControl` (R142). -/
def execBaseControl (speed radius : Half) (s : State) : Host.Outcome State Fault Refusal :=
  deliverEncoder (.ok (baseControlFrame speed radius)) s

/-- The meaning of `Sound` (R144, R145). -/
def execSound (freq amp duration : Byte) (s : State) : Host.Outcome State Fault Refusal :=
  deliverEncoder (soundFrame freq amp duration) s

/-- The meaning of `SoundSequence` (R147). -/
def execSoundSequence (seq : Byte) (s : State) : Host.Outcome State Fault Refusal :=
  deliverEncoder (.ok (soundSequenceFrame seq)) s

/-- The meaning of `RequestExtra` (R150). -/
def execRequestExtra (hwVer fwVer udid : Bool) (s : State) : Host.Outcome State Fault Refusal :=
  deliverEncoder (.ok (requestExtraFrame hwVer fwVer udid)) s

/-- The meaning of `GeneralPurposeOutput` (R152). -/
def execGeneralPurposeOutput (dout pwr led : Bits4) (s : State) : Host.Outcome State Fault Refusal :=
  deliverEncoder (.ok (generalPurposeOutputFrame dout pwr led)) s

/-- The meaning of `SetControllerGain` (R155). -/
def execSetControllerGain (userConfigured : Bool) (p i d : Word) (s : State) : Host.Outcome State Fault Refusal :=
  deliverEncoder (.ok (setControllerGainFrame userConfigured p i d)) s

/-- The meaning of `GetControllerGain` (R160). -/
def execGetControllerGain (s : State) : Host.Outcome State Fault Refusal :=
  deliverEncoder (.ok getControllerGainFrame) s

end Sys2Proof.Machine
end

