-- ==== Sys2Proof/Machine/StreamDecoder.lean ====
section
/-! DEFINITION. The StreamDecoder and the DECODE operation (42_decoder.md): the loop of R182 over an explicit cursor, the same
machine as small steps (R208), the phases (10_state.md R28), and the two uses of the operation (R24). -/

namespace Sys2Proof.Machine

/-- The transient state of one `DECODE` (10_state.md R26, R27, R29). -/
structure Scan where
  /-- The work buffer `B`, never modified (R26). -/
  buf : List Byte
  /-- The cursor `cur` (R27). -/
  cur : Nat
  /-- The frames emitted so far, in stream order (R29). -/
  frames : List FeedbackFrame
  /-- `ChecksumMismatch` events so far (R29). -/
  mismatches : Nat
  /-- `BadLength` events so far (R29). -/
  badLengths : Nat
deriving DecidableEq, Repr

/-- What one pass of the loop, or one small step, comes to: the call ends with a residue, or it goes on. -/
inductive ScanMove where
  | stop (newResidue : List Byte)
  | move (s : Scan)
deriving DecidableEq, Repr

/-- Initialisation of every call (R181): `B <- residue ++ newBytes`, everything else empty or zero. -/
def scanStart (newBytes residue : List Byte) : Scan :=
  { buf := residue ++ newBytes, cur := 0, frames := [], mismatches := 0, badLengths := 0 }

/-- Whether a marker stands at index `j` of `B` (R183). -/
def markerAt (B : List Byte) (j : Nat) : Bool :=
  decide (j + 1 < B.length) && (byteAt B j == Config.marker0 && byteAt B (j + 1) == Config.marker1)

/-- The least offset at which a marker stands in a byte sequence. -/
def markerOffset : List Byte → Option Nat
  | [] => none
  | [_] => none
  | a :: b :: t =>
    if a = Config.marker0 ∧ b = Config.marker1 then some 0 else (markerOffset (b :: t)).map (· + 1)

/-- The first marker at or after `cur`, "the least `j >= cur` at which a marker stands" (R184). -/
def findMarker (B : List Byte) (cur : Nat) : Option Nat :=
  (markerOffset (B.drop cur)).map (cur + ·)

/-- `raise` inside `DECODE`: the condition is recorded and the call goes on (00_scope.md R10). The other conditions are
read off the results (R198). -/
def raiseInScan (c : Condition) (s : Scan) : Scan :=
  match c with
  | .checksumMismatch => { s with mismatches := s.mismatches + 1 }
  | .badLength => { s with badLengths := s.badLengths + 1 }
  | .invalidInput => s
  | .incompleteFrame => s
  | .noCompleteFrame => s

/-- `emit(fr)`: append a feedback frame to the output list (R10, R194). -/
def emit (f : FeedbackFrame) (s : Scan) : Scan :=
  { s with frames := s.frames ++ [f] }

/-- `cur <- target` (R10). -/
def setCur (target : Nat) (s : Scan) : Scan :=
  { s with cur := target }

/-- The residue when no marker is left: a lone last `AA` is kept, everything else is noise (R186). -/
def trailingResidue (s : Scan) : List Byte :=
  if s.cur < s.buf.length ∧ byteAt s.buf (s.buf.length - 1) = Config.marker0 then [Config.marker0] else []

/-- Steps 2 to 4 at a marker that stands at `cur`, in the fixed order of R239: is the Length byte there (R188), is it at least 3
(R190), is the whole candidate there (R192), does its checksum match (R193, R194, R196). -/
def judgeCandidate (s : Scan) : ScanMove :=
  let n := s.buf.length
  if n - s.cur < Config.hdrLen then .stop (slice s.buf s.cur n)
  else
    let L := (byteAt s.buf (s.cur + Config.offLength)).toNat
    if L < Config.minLength then .move (setCur (s.cur + 1) (raiseInScan .badLength s))
    else
      let T := Config.hdrLen + L
      if n - s.cur < T then .stop (slice s.buf s.cur n)
      else
        let Fc := slice s.buf s.cur (s.cur + T)
        let c := checksum (slice Fc 0 (T - 1))
        if c = byteAt Fc (T - 1) then
          .move (setCur (s.cur + T) (emit ⟨byteAt Fc Config.offId, slice Fc Config.offPayload (T - 1)⟩ s))
        else .move (setCur (s.cur + 1) (raiseInScan .checksumMismatch s))

/-- One pass of the loop of R182: step 1, then the candidate at the marker found. -/
def scanPass (s : Scan) : ScanMove :=
  match findMarker s.buf s.cur with
  | none => .stop (trailingResidue s)
  | some m => judgeCandidate (setCur m s)

/-- The loop of R182, at most `fuel` passes. Every pass ends the call or raises `cur`, which never passes `n` (R197), so
`n + 1` passes are enough and the first line is reached by no call (log 15). -/
def scanLoop : Nat → Scan → Scan × List Byte
  | 0, s => (s, slice s.buf s.cur s.buf.length)
  | fuel + 1, s =>
    match scanPass s with
    | .stop newResidue => (s, newResidue)
    | .move s' => scanLoop fuel s'

/-- The results of a call that ended in the given scan with the given residue (R198). -/
def scanResult (x : Scan × List Byte) : DecodeResult :=
  { frames := x.1.frames
    newResidue := x.2
    mismatches := x.1.mismatches
    badLengths := x.1.badLengths
    noCompleteFrame := noCompleteFrameBit x.1.frames
    incompleteFrame := incompleteFrameBit x.2 }

/-- What a call in the given scan comes to: the loop of R182 run to its end (R197). -/
def finishScan (s : Scan) : DecodeResult :=
  scanResult (scanLoop (s.buf.length + 1) s)

/-- `decode(newBytes, residue)` (R180, R182): a pure function of its two operands, total (R207). -/
def decodeStream (newBytes residue : List Byte) : DecodeResult :=
  finishScan (scanStart newBytes residue)

/-- The small-step relation of R208, as a function: exactly one row's guard holds. A step that finds a marker further on only
moves the cursor to it. -/
def scanStep (s : Scan) : ScanMove :=
  if markerAt s.buf s.cur then judgeCandidate s
  else
    match findMarker s.buf s.cur with
    | none => .stop (trailingResidue s)
    | some m => .move (setCur m s)

/-- The closure of the small-step relation, at most `fuel` steps. -/
def scanSteps : Nat → Scan → Scan × List Byte
  | 0, s => (s, slice s.buf s.cur s.buf.length)
  | fuel + 1, s =>
    match scanStep s with
    | .stop newResidue => (s, newResidue)
    | .move s' => scanSteps fuel s'

/-- The phases of the scan (10_state.md R28, 00_scope.md R12). -/
inductive Phase where
  | searching
  | lengthPending
  | bodyPending
deriving DecidableEq, Repr

/-- The phase of a scan, a function of `cur` and `B` (R28). *Searching* while no marker stands at the cursor, whether none is
left or the first stands further on: the bytes up to it are the noise of R185, and R208 names its move to the marker so.
*Length-pending* and *body-pending* by R28's own tests; body-pending does not ask for a Length of at least 3 there, where
R208's row does. With all `3 + L` bytes there R28 names no phase. The decoder reads none of this: a short Length is
rejected before completeness is tested (R190, R239). DEDUCED (log 18). -/
def scanPhase (s : Scan) : Option Phase :=
  if markerAt s.buf s.cur then
    if s.buf.length - s.cur < Config.hdrLen then some .lengthPending
    else if s.buf.length - s.cur < Config.hdrLen + (byteAt s.buf (s.cur + Config.offLength)).toNat then some .bodyPending
    else none
  else some .searching

/-- The phase a residue stands for, by the table of R23. The table has no row for a value outside the four shapes, which a load
can put in `RES` (R24): there the model answers by the length alone. DESIGN CHOICE (log 18). -/
def residuePhase (r : List Byte) : Phase :=
  if r.length < 2 then .searching else if r.length < 3 then .lengthPending else .bodyPending

/-- `DECODE` (R182). Carried use: `decode(newBytes, RES)`, then `RES <- newResidue` (R24, R180). Function use: the residue is
the operand, and no state is written but the results (R198). -/
def execDecode (newBytes : List Byte) (residue : ResidueSource) (s : State) : Host.Outcome State Fault Refusal :=
  match residue with
  | .carried =>
    let r := decodeStream newBytes (readResidue s)
    .next (deliver (.decoded r) (writeResidue r.newResidue s))
  | .supplied given => .next (deliver (.decoded (decodeStream newBytes given)) s)

end Sys2Proof.Machine
end

