-- ==== Sys2Proof/Machine/Dispatch.lean ====
section
/-! DEFINITION. The nine operations (00_scope.md R6), each to its meaning. -/

namespace Sys2Proof.Machine

def exec (i : Instr) (s : State) : Host.Outcome State Fault Refusal :=
  match i with
  | .checksum buf => Sys2Proof.Machine.execChecksum buf s
  | .baseControl speed radius => Sys2Proof.Machine.execBaseControl speed radius s
  | .sound freq amp duration => Sys2Proof.Machine.execSound freq amp duration s
  | .soundSequence seq => Sys2Proof.Machine.execSoundSequence seq s
  | .requestExtra hwVer fwVer udid => Sys2Proof.Machine.execRequestExtra hwVer fwVer udid s
  | .generalPurposeOutput dout pwr led => Sys2Proof.Machine.execGeneralPurposeOutput dout pwr led s
  | .setControllerGain uc p iGain d => Sys2Proof.Machine.execSetControllerGain uc p iGain d s
  | .getControllerGain => Sys2Proof.Machine.execGetControllerGain s
  | .decode newBytes residue => Sys2Proof.Machine.execDecode newBytes residue s

end Sys2Proof.Machine
end

