-- ==== Sys2Proof/WellFormed.lean ====
section
/-! DEFINITION. Which requests the spec gives a meaning. Every operand value of every operation is accepted: widths are in
the types, byte sequences may have any finite length, and no range is checked (10_state.md R21, 41_encoder.md R142, R147,
93_implementation_defined.md U5, D19, D35, D36). A load of `RES` is limited to `RES_MAX` bytes (R24). -/

namespace Sys2Proof

/-- Every operation is well formed: no operand value of any of the nine is outside the spec (U5, U13, U19). A zero operand
of `Sound` is well formed too; it is reported as `InvalidInput` (R145). -/
def Instr.wellFormed : Instr → Bool
  | .checksum _ => true
  | .baseControl _ _ => true
  | .sound _ _ _ => true
  | .soundSequence _ => true
  | .requestExtra _ _ _ => true
  | .generalPurposeOutput _ _ _ => true
  | .setControllerGain _ _ _ _ => true
  | .getControllerGain => true
  | .decode _ _ => true

/-- A load of `RES` carries at most `RES_MAX` bytes (R24); nothing else is limited. -/
def Request.wellFormed : Request → Bool
  | .operation i => i.wellFormed
  | .image _ => true
  | .loadResidue v => decide (v.length ≤ Config.resMax)
  | .readResidue => true
  | .reset => true

end Sys2Proof
end

