-- ==== Sys2Proof/Decode.lean ====
section
/-! DEFINITION. The command a frame's header names (30_encoding.md R99), and the byte images of requests: a decoder total on
any bytes, rejecting by name, and its encoder.

An image is the header of the command's row (opcode_table.json, R88) followed by the bytes of its operand ports in the order
of 10_state.md R21, multi-byte operands little-endian (R52), flag operands packed as in their frame (R92, R93, R94). The
three operations without a command header have a select code in the place of Length. The spec leaves the select code OPSEL
open and no rule depends on it (R8, D28, U21): the images are the model's own. DESIGN CHOICE (log 3). -/

namespace Sys2Proof

open Sys2Proof.Machine

/-- Bytes 0..4 of every outbound frame of a command: its row of `GRAMMAR` (R88), the row's `match` in opcode_table.json. -/
def frameHeader (c : Command) : List Byte :=
  [Config.marker0, Config.marker1, (grammar c).length, (grammar c).id, (grammar c).size]

/-- The command whose header bytes are the five given: "a frame whose bytes 0..4 equal a row's header bytes is a frame of that
command" (R99). -/
def commandOfHeader (h : List Byte) : Option Command :=
  Command.all.find? (fun c => decide (frameHeader c = h))

/-- The command with the given Id: the seven Ids are distinct (R87, R99). -/
def commandOfId (id : Byte) : Option Command :=
  Command.all.find? (fun c => decide ((grammar c).id = id))

/-- Why an image is no request. Each is safe: the request is turned away. -/
inductive DecodeError where
  /-- The image ends inside its header or inside a supplied residue. -/
  | tooShort
  /-- Bytes 0 and 1 are not `AA 55`. -/
  | notAMarker
  /-- Bytes 0..4 are no row's header (R99, R101). -/
  | unknownHeader
  /-- The number of operand bytes is not the command's. -/
  | operandLength
  /-- A flag byte sets a bit that no operand names (R92, R93, R94). -/
  | reservedBits
deriving DecidableEq, Repr

/-- A 16-bit operand from its two bytes, low byte first (R52). -/
def halfOf (b0 b1 : Byte) : Half :=
  b1 ++ b0

/-- A 32-bit operand from its four bytes, low byte first (R52). -/
def wordOf (b0 b1 b2 b3 : Byte) : Word :=
  b3 ++ b2 ++ b1 ++ b0

/-- The four flags in bits `k` to `k+3` of a byte, lowest first (R93). -/
def bits4Of (b : Byte) (k : Nat) : Bits4 :=
  { b0 := b.getLsbD k, b1 := b.getLsbD (k + 1), b2 := b.getLsbD (k + 2), b3 := b.getLsbD (k + 3) }

/-- The operands of a command, from the bytes of its operand ports (R21). -/
def decodeOperands : Command → List Byte → Except DecodeError Instr
  | .baseControl, [s0, s1, r0, r1] => .ok (.baseControl (halfOf s0 s1) (halfOf r0 r1))
  | .sound, [freq, amp, duration] => .ok (.sound freq amp duration)
  | .soundSequence, [seq] => .ok (.soundSequence seq)
  | .requestExtra, [flags] =>
    if flags &&& 0x7C#8 = 0 then
      .ok (.requestExtra (flags.getLsbD 0) (flags.getLsbD 1) (flags.getLsbD 7))
    else .error .reservedBits
  | .generalPurposeOutput, [byte0, byte1] =>
    if byte1 &&& 0xF0#8 = 0 then
      .ok (.generalPurposeOutput (bits4Of byte0 0) (bits4Of byte0 4) (bits4Of byte1 0))
    else .error .reservedBits
  | .setControllerGain, [uc, p0, p1, p2, p3, i0, i1, i2, i3, d0, d1, d2, d3] =>
    if uc &&& 0xFE#8 = 0 then
      .ok (.setControllerGain (uc.getLsbD 0) (wordOf p0 p1 p2 p3) (wordOf i0 i1 i2 i3) (wordOf d0 d1 d2 d3))
    else .error .reservedBits
  | .getControllerGain, [] => .ok .getControllerGain
  | _, _ => .error .operandLength

/-- The image of a supplied residue: each byte after a `01`, and a `00` at the end. DESIGN CHOICE (log 3). -/
def residueImage : List Byte → List Byte
  | [] => [0x00]
  | b :: r => 0x01 :: b :: residueImage r

/-- A supplied residue and what follows it. -/
def splitResidue : List Byte → Option (List Byte × List Byte)
  | [] => none
  | [c] => if c = 0x00 then some ([], []) else none
  | c :: b :: t =>
    if c = 0x00 then some ([], b :: t)
    else if c = 0x01 then (splitResidue t).map (fun x => (b :: x.1, x.2))
    else none

/-- The request an image stands for. Total; refuses by name. -/
def decodeRequest : List Byte → Except DecodeError Instr
  | m0 :: m1 :: sel :: rest =>
    if m0 ≠ Config.marker0 ∨ m1 ≠ Config.marker1 then .error .notAMarker
    else if sel = Config.selDecodeCarried then .ok (.decode rest .carried)
    else if sel = Config.selDecodeSupplied then
      match splitResidue rest with
      | some (residue, newBytes) => .ok (.decode newBytes (.supplied residue))
      | none => .error .tooShort
    else if sel = Config.selChecksum then .ok (.checksum rest)
    else
      match rest with
      | id :: size :: operands =>
        match commandOfHeader [m0, m1, sel, id, size] with
        | some c => decodeOperands c operands
        | none => .error .unknownHeader
      | _ => .error .tooShort
  | _ => .error .tooShort

/-- The image of a request. -/
def encodeRequest : Instr → List Byte
  | .checksum buf => Config.marker0 :: Config.marker1 :: Config.selChecksum :: buf
  | .baseControl speed radius => frameHeader .baseControl ++ (le16 speed ++ le16 radius)
  | .sound freq amp duration => frameHeader .sound ++ [freq, amp, duration]
  | .soundSequence seq => frameHeader .soundSequence ++ [seq]
  | .requestExtra hwVer fwVer udid => frameHeader .requestExtra ++ [requestExtraFlags hwVer fwVer udid]
  | .generalPurposeOutput dout pwr led =>
    frameHeader .generalPurposeOutput ++ [gpoByte0 dout pwr, gpoByte1 led]
  | .setControllerGain userConfigured p i d =>
    frameHeader .setControllerGain ++ (userConfiguredByte userConfigured :: (le32 p ++ (le32 i ++ le32 d)))
  | .getControllerGain => frameHeader .getControllerGain
  | .decode newBytes .carried => Config.marker0 :: Config.marker1 :: Config.selDecodeCarried :: newBytes
  | .decode newBytes (.supplied residue) =>
    Config.marker0 :: Config.marker1 :: Config.selDecodeSupplied :: (residueImage residue ++ newBytes)

/-- How many operand bytes a command's image has (R21). -/
def operandBytes : Command → Nat
  | .baseControl => 4
  | .sound => 3
  | .soundSequence => 1
  | .requestExtra => 1
  | .generalPurposeOutput => 2
  | .setControllerGain => 13
  | .getControllerGain => 0

/-- The bytes of an opcode-table pattern of `nbits` bits, "byte 0 of the frame first" (R99): the most significant byte of the
number is byte 0. DEDUCED (log 4). -/
def patternBytes (nbits w : Nat) : List Byte :=
  (List.range (nbits / 8)).map (fun k => BitVec.ofNat 8 (w >>> (8 * (nbits / 8 - 1 - k))))

/-- The length of the image that begins with the given bytes, its variable-length operands empty. -/
def imageLength (b : List Byte) : Nat :=
  match commandOfHeader (b.take 5) with
  | some c => 5 + operandBytes c
  | none => 3

/-- The image an opcode-table pattern begins, with every operand byte above the pattern zero (log 4). -/
def tableImage (nbits w : Nat) : List Byte :=
  patternBytes nbits w ++ List.replicate (imageLength (patternBytes nbits w) - nbits / 8) 0

/-- The request the decoder reads from an opcode-table pattern; `none` where it refuses. -/
def decodeTableWord (nbits w : Nat) : Option Instr :=
  (decodeRequest (tableImage nbits w)).toOption

end Sys2Proof
end

