-- ==== Sys2Proof/Machine/Request.lean ====
section
/-! DEFINITION. Serving what the caller puts to the block (10_state.md R24, R25, 60_exceptions.md R252). There is no program
counter and no fetch (R25): the next operation is the first of `requests` (log 1). -/

namespace Sys2Proof.Machine

/-- What the first request comes to. -/
inductive Served where
  /-- No request is there. -/
  | idle
  /-- An operation, and the state it runs in: the request taken off the port. -/
  | operation (i : Instr) (s : State)
  /-- A service between operations, already done, or a request turned away. -/
  | service (o : Host.Outcome State Fault Refusal)
deriving Repr

/-- The first request is taken off the port and looked at: operations take effect in the order requested (R62). -/
def serve (s : State) : Served :=
  match s.requests with
  | [] => .idle
  | .operation i :: rest => .operation i { s with requests := rest }
  | .image bytes :: rest =>
    match decodeRequest bytes with
    | .ok i => .operation i { s with requests := rest }
    | .error _ => .service (.refused .unknownRequest)
  | .loadResidue v :: rest => .service (loadResidue v { s with requests := rest })
  | .readResidue :: rest => .service (.next (readOutResidue { s with requests := rest }))
  | .reset :: rest => .service (.next (resetBlock { s with requests := rest }))

/-- The caller puts the operation with the given image next. -/
def requestImage (bytes : List Byte) (s : State) : State :=
  { s with requests := .image bytes :: s.requests }

end Sys2Proof.Machine
end

