-- ==== Sys2Proof/Machine/Step.lean ====
section
/-! DEFINITION. One step of the machine: one request served, one operation run from start to end (00_scope.md R5). -/

namespace Sys2Proof.Machine

/-- A step serves the first request. Without one nothing happens: "nothing happens in it except during a requested operation"
(60_exceptions.md R245; log 8). -/
def step (s : State) : Host.Outcome State Fault Refusal :=
  match serve s with
  | .idle => .next s
  | .operation i s' => exec i s'
  | .service o => o

/-- The state in which the very next step runs the operation of an opcode-table pattern: its image is put at the head of the
requests (log 1, log 4). -/
def State.withFetchWord (s : State) (nbits w : Nat) : State :=
  requestImage (tableImage nbits w) s

end Sys2Proof.Machine
end

