-- ==== Sys2Proof/Safety.lean ====
section
/-! DEFINITION. The terms claims about the block are made in: well-formed frames (30_encoding.md R84), the shapes of a residue
(10_state.md R23), the bound on `RES` (R22), and runs of many requests. -/

namespace Sys2Proof.Machine

/-- A well-formed frame (R84): Length = Size + 3, and the total length is Length + 3. -/
def wellFormedFrame (F : List Byte) : Bool :=
  decide (5 < F.length) &&
    (decide ((byteAt F Config.offLength).toNat = (byteAt F Config.offSize).toNat + 3) &&
      decide (F.length = (byteAt F Config.offLength).toNat + Config.hdrLen))

/-- The four shapes of a residue that `DECODE` returns, "and no other" (R23). -/
def residueShape : List Byte → Bool
  | [] => true
  | [a] => a == Config.marker0
  | [a, b] => a == Config.marker0 && b == Config.marker1
  | a :: b :: l :: t =>
    a == Config.marker0 && (b == Config.marker1 && (decide (Config.minLength ≤ l.toNat) &&
      decide (t.length + 3 ≤ l.toNat + 2)))

/-- `RES` holds at most `RES_MAX` bytes (R22). -/
abbrev State.residueFits (s : State) : Prop :=
  s.res.length ≤ Config.resMax

/-- An accepted inbound frame's bytes: markers, Length, Id, Size, payload, checksum, the Length counting Id to Checksum
(R80, R81); the Size byte is free, the decoder does not examine it (R100). -/
def inboundFrame (id size : Byte) (payload : List Byte) : List Byte :=
  [Config.marker0, Config.marker1, BitVec.ofNat 8 (payload.length + 3), id, size] ++ payload ++ [xorFold payload]

/-- The command an operation sends; `CHECKSUM` and `DECODE` send none (00_scope.md R6). -/
def commandOf : Instr → Option Command
  | .checksum _ => none
  | .baseControl _ _ => some .baseControl
  | .sound _ _ _ => some .sound
  | .soundSequence _ => some .soundSequence
  | .requestExtra _ _ _ => some .requestExtra
  | .generalPurposeOutput _ _ _ => some .generalPurposeOutput
  | .setControllerGain _ _ _ _ => some .setControllerGain
  | .getControllerGain => some .getControllerGain
  | .decode _ _ => none

/-- The outbound frame lengths (R86). -/
def frameBytes : Command → Nat
  | .baseControl => 10
  | .sound => 9
  | .soundSequence => 7
  | .requestExtra => 7
  | .generalPurposeOutput => 8
  | .setControllerGain => 19
  | .getControllerGain => 7

/-- The 13 payload bytes of `SetControllerGain`, from its byte and its three words (R94). -/
def gainPayload (uc : Byte) (P I D : Word) : List Byte :=
  [uc, P.setWidth 8, (P >>> 8).setWidth 8, (P >>> 16).setWidth 8, (P >>> 24).setWidth 8,
    I.setWidth 8, (I >>> 8).setWidth 8, (I >>> 16).setWidth 8, (I >>> 24).setWidth 8,
    D.setWidth 8, (D >>> 8).setWidth 8, (D >>> 16).setWidth 8, (D >>> 24).setWidth 8]

/-- The results of decoding a list of chunks one after another, the residue threaded from call to call (R275), and the residue
after the last. -/
def decodeChunks : List (List Byte) → List Byte → List DecodeResult × List Byte
  | [], residue => ([], residue)
  | c :: cs, residue =>
    (decodeStream c residue :: (decodeChunks cs (decodeStream c residue).newResidue).1,
      (decodeChunks cs (decodeStream c residue).newResidue).2)

end Sys2Proof.Machine
end

