-- ==== Sys2Proof/Certificates/Slice0/Obligations.lean ====
section
/-! DEFINITION. The statements about the block, from the numbered rules of spec/. Each docstring names the rule it formalises,
or the spec's decision or log entry it rests on. An operation's meaning is stated as an equation for the whole next state, so
each such statement is also its frame: every field it does not name is as before. -/

open Sys2Proof Sys2Proof.Machine

/-! ### Reset and the machine's step -/

/-- Reset leaves `RES` empty, and nothing else persists (R270, R36, D20). That the result ports are idle and no request is
there is the model's choice (log 1, log 2). -/
def Obligations.ResetLeavesEmptyResidue : Prop :=
  State.reset.res = [] ∧ State.reset.result = .idle ∧ State.reset.requests = []

/-- The reset state meets the two invariants stated below. -/
def Obligations.ResetMeetsResidueInvariants : Prop :=
  State.reset.residueFits ∧ residueShape State.reset.res = true

/-- `RES` never holds more than 257 bytes: every step, whatever it serves, keeps the bound (R22, R203, R24). -/
def Obligations.StepKeepsResidueBound : Prop :=
  ∀ s s' : State, s.residueFits → step s = .next s' → s'.residueFits

/-- `RES` keeps one of the four shapes of R23 through every step, as long as what the caller loads has one of them. -/
def Obligations.StepKeepsResidueShape : Prop :=
  ∀ s s' : State, residueShape s.res = true →
    (∀ v, Request.loadResidue v ∈ s.requests → residueShape v = true) →
    step s = .next s' →
    residueShape s'.res = true ∧ ∀ v, Request.loadResidue v ∈ s'.requests → residueShape v = true

/-- A step runs the operation the caller requests next, with the request taken off the port: given as a value of the
nine-constructor type (D28), or by its image, which is the model's choice (log 3), or by an opcode-table pattern (log 4). -/
def Obligations.StepRunsRequestedOperation : Prop :=
  (∀ (s : State) (i : Instr) (rest : List Request), s.requests = .operation i :: rest →
    step s = exec i { s with requests := rest }) ∧
  (∀ (s : State) (b : List Byte) (i : Instr) (rest : List Request), s.requests = .image b :: rest →
    decodeRequest b = .ok i → step s = exec i { s with requests := rest }) ∧
  (∀ (s : State) (nbits w : Nat) (i : Instr), decodeTableWord nbits w = some i →
    step (s.withFetchWord nbits w) = exec i s)

/-- An image that names none of the nine operations is turned away by name (log 3). -/
def Obligations.StepRefusesUnknownImage : Prop :=
  ∀ (s : State) (b : List Byte) (e : DecodeError) (rest : List Request), s.requests = .image b :: rest →
    decodeRequest b = .error e → step s = .refused .unknownRequest

/-- With no request there is no effect (R245; the model's choice to let such a step pass is log 8). -/
def Obligations.StepWithoutRequestChangesNothing : Prop :=
  ∀ s : State, s.requests = [] → step s = .next s

/-- The caller loads `RES` with at most 257 bytes (R24); a longer load is turned away (log 7). The idle result ports are the
model's choice (log 9). -/
def Obligations.LoadWritesResidueUpToItsSize : Prop :=
  ∀ (s : State) (v : List Byte) (rest : List Request), s.requests = .loadResidue v :: rest →
    (v.length ≤ 257 → step s = .next { res := v, result := .idle, requests := rest }) ∧
    (257 < v.length → step s = .refused .residueTooLong)

/-- The caller reads `RES` and resets the block between operations (R24, R270, R271; log 9). -/
def Obligations.ReadAndResetBetweenOperations : Prop :=
  ∀ (s : State) (rest : List Request),
    (s.requests = .readResidue :: rest → step s = .next { res := s.res, result := .residue s.res, requests := rest }) ∧
    (s.requests = .reset :: rest → step s = .next { res := [], result := .idle, requests := rest })

/-! ### All nine operations -/

/-- No operation stops the machine (R230, R238), and none touches what the caller asks next (log 1). -/
def Obligations.EveryOperationCompletes : Prop :=
  ∀ (i : Instr) (s : State), ∃ t, exec i s = .next t ∧ t.requests = s.requests

/-- `RES` is written by `DECODE` in carried use only: every other operation leaves it (R22, R51, R141). -/
def Obligations.OnlyCarriedDecodeWritesResidue : Prop :=
  ∀ (i : Instr) (s t : State), (∀ newBytes, i ≠ .decode newBytes .carried) → exec i s = .next t → t.res = s.res

/-- The results of every operation but `DECODE` in carried use depend on its operands alone: two states, whatever they hold,
get the same results (R51, R141). -/
def Obligations.ResultsDependOnOperandsOnly : Prop :=
  ∀ i : Instr, (∀ newBytes, i ≠ .decode newBytes .carried) →
    ∃ r, ∀ s : State, exec i s = .next { s with result := r }

/-- No operation reads the results of an earlier one (R32, R20; that they stand on the ports at all is log 2). -/
def Obligations.NoOperationReadsEarlierResults : Prop :=
  ∀ (i : Instr) (s : State) (r : Result), exec i { s with result := r } = exec i s

/-- "encoder and checksum operations commute with everything" (R62): a `DECODE` after one answers and leaves what it would
have without it. -/
def Obligations.DecodeUnaffectedByOtherOperations : Prop :=
  ∀ (i : Instr) (s t : State) (newBytes : List Byte), (∀ b, i ≠ .decode b .carried) → exec i s = .next t →
    exec (.decode newBytes .carried) t = exec (.decode newBytes .carried) s

/-! ### ChecksumUnit -/

/-- R120: the XOR of the bytes from offset 5 on, 0 when fewer than 5 bytes are there; nothing but the result changes. -/
def Obligations.ChecksumFoldsPayload : Prop :=
  ∀ (buf : List Byte) (s : State), exec (.checksum buf) s =
    .next { s with result := .checksum (if buf.length < 5 then 0 else (buf.drop 5).foldl (fun a b => a ^^^ b) 0) }

/-- Bit by bit: each bit of the checksum is the parity of that bit over the payload bytes (R120, R125). -/
def Obligations.ChecksumBitsAreParities : Prop :=
  ∀ (buf : List Byte) (k : Nat), k < 8 →
    (checksum buf).getLsbD k = decide ((buf.drop 5).countP (fun b => b.getLsbD k) % 2 = 1)

/-- The streaming registers end at the checksum, and the counter at 5 or the length (R124). -/
def Obligations.StreamingRegistersComputeChecksum : Prop :=
  ∀ buf : List Byte, (buf.foldl csuFeed csuClear).acc = checksum buf ∧
    (buf.foldl csuFeed csuClear).idx.toNat = min 5 buf.length

/-- The header bytes never influence the checksum (R120, R123), nor does the order of the payload bytes (R125). -/
def Obligations.ChecksumIgnoresHeaderAndOrder : Prop :=
  ∀ h h' p p' : List Byte, h.length = 5 → h'.length = 5 → p.Perm p' → checksum (h ++ p) = checksum (h' ++ p')

/-- Replacing one payload byte changes the checksum by the difference of the two (R125 item 3). -/
def Obligations.ChecksumDetectsOneChangedByte : Prop :=
  ∀ (h p q : List Byte) (x y : Byte), 5 ≤ h.length → x ≠ y →
    checksum (h ++ p ++ x :: q) ^^^ checksum (h ++ p ++ y :: q) = x ^^^ y ∧
    checksum (h ++ p ++ x :: q) ≠ checksum (h ++ p ++ y :: q)

/-! ### FrameEncoder -/

/-- R142: the ten bytes of `BaseControl`, for every pair of 16-bit operands. -/
def Obligations.BaseControlSendsTenBytes : Prop :=
  ∀ (speed radius : Half) (s : State), exec (.baseControl speed radius) s = .next { s with
      result := .encoded [0xAA, 0x55, 7, 1, 4, speed.setWidth 8, (speed >>> 8).setWidth 8, radius.setWidth 8, (radius >>> 8).setWidth 8,
      speed.setWidth 8 ^^^ (speed >>> 8).setWidth 8 ^^^ radius.setWidth 8 ^^^ (radius >>> 8).setWidth 8] }

/-- R144 with the exact product of R146 (D8): the value is 1 for `freq = amp = 1` and 0 for every other pair. -/
def Obligations.SoundSendsNineBytes : Prop :=
  ∀ (freq amp duration : Byte) (s : State), freq ≠ 0 → amp ≠ 0 → duration ≠ 0 →
    exec (.sound freq amp duration) s = .next { s with
      result := .encoded [0xAA, 0x55, 6, 3, 3, if freq = 1 ∧ amp = 1 then 1 else 0, 0, duration,
        (if freq = 1 ∧ amp = 1 then 1 else 0) ^^^ duration] }

/-- R145, R231: a zero operand is `InvalidInput`, no frame and no other change; no other operation and no other operand
answers it. -/
def Obligations.OnlySoundWithZeroIsInvalid : Prop :=
  (∀ (freq amp duration : Byte) (s : State), freq = 0 ∨ amp = 0 ∨ duration = 0 →
    exec (.sound freq amp duration) s = .next { s with result := .invalidInput }) ∧
  (∀ (i : Instr) (s t : State), exec i s = .next t → t.result = .invalidInput →
    ∃ freq amp duration, i = .sound freq amp duration ∧ (freq = 0 ∨ amp = 0 ∨ duration = 0))

/-- R147: the seven bytes of `SoundSequence`; the checksum of a one-byte payload is that byte. -/
def Obligations.SoundSequenceSendsSevenBytes : Prop :=
  ∀ (seq : Byte) (s : State), exec (.soundSequence seq) s =
    .next { s with result := .encoded [0xAA, 0x55, 4, 4, 1, seq, seq] }

/-- R150: one flag byte, `hwVer` weight 1, `fwVer` weight 2, `udid` weight 128 (D4), the rest 0 (D6), sent twice, as payload and
as checksum; the second payload byte that Size announces is absent. -/
def Obligations.RequestExtraSendsOneFlagByte : Prop :=
  ∀ (hwVer fwVer udid : Bool) (s : State), exec (.requestExtra hwVer fwVer udid) s = .next { s with
      result := .encoded [0xAA, 0x55, 5, 9, 2, BitVec.ofNat 8 (hwVer.toNat + 2 * fwVer.toNat + 128 * udid.toNat),
      BitVec.ofNat 8 (hwVer.toNat + 2 * fwVer.toNat + 128 * udid.toNat)] }

/-- R152: the digital outputs have weights 1 to 8 and the rails 16 to 128 in the first byte, the LEDs 1 to 8 in the second, in
the order listed (D4, D6, D7). -/
def Obligations.GeneralPurposeOutputSendsTwoFlagBytes : Prop :=
  ∀ (d0 d1 d2 d3 p0 p1 p2 p3 l0 l1 l2 l3 : Bool) (s : State) (byte0 byte1 : Byte),
    byte0.toNat = d0.toNat + 2 * d1.toNat + 4 * d2.toNat + 8 * d3.toNat +
      16 * p0.toNat + 32 * p1.toNat + 64 * p2.toNat + 128 * p3.toNat →
    byte1.toNat = l0.toNat + 2 * l1.toNat + 4 * l2.toNat + 8 * l3.toNat →
    exec (.generalPurposeOutput ⟨d0, d1, d2, d3⟩ ⟨p0, p1, p2, p3⟩ ⟨l0, l1, l2, l3⟩) s =
      .next { s with result := .encoded [0xAA, 0x55, 5, 12, 2, byte0, byte1, byte0 ^^^ byte1] }

/-- R155: the `userConfigured` byte (D5), the three gain words little-endian, and the XOR of those 13 bytes. -/
def Obligations.SetControllerGainSendsThreeWords : Prop :=
  ∀ (uc : Bool) (p i d : Word) (s : State), exec (.setControllerGain uc p i d) s = .next { s with
      result := .encoded ([0xAA, 0x55, 16, 13, 13] ++ gainPayload (if uc then 1 else 0) (pWord p) (iWord i) (dWord d) ++
      [(gainPayload (if uc then 1 else 0) (pWord p) (iWord i) (dWord d)).foldl (fun a b => a ^^^ b) 0]) }

/-- R156, R158: the P and D words, with the fallbacks for zero; above 4294967 the low 32 bits of the product, the spec's own
decision D9 (log 10). -/
def Obligations.GainPAndDWordsScaleByThousand : Prop :=
  (∀ p : Word, (pWord p).toNat = if p.toNat = 0 then 1000 else p.toNat * 1000 % 2 ^ 32) ∧
  (∀ d : Word, (dWord d).toNat = if d.toNat = 0 then 2000 else d.toNat * 1000 % 2 ^ 32) ∧
  (∀ x : Word, 1 ≤ x.toNat → x.toNat ≤ 4294967 → (pWord x).toNat = x.toNat * 1000 ∧ (dWord x).toNat = x.toNat * 1000)

/-- R157, R159 by bit patterns: a NaN gives the NaN word 0 (D11), a pattern outside `0x3DCCCCCD .. 0x46FA0000` gives 100, both
ends are inside (D10; log 10), and inside the word is between 100 and 32000000. -/
def Obligations.GainIWordFallbacksByPattern : Prop :=
  ∀ i : Word,
    (0x7F800000 < i.toNat % 2 ^ 31 → iWord i = 0) ∧
    (i.toNat % 2 ^ 31 ≤ 0x7F800000 → i.toNat < 0x3DCCCCCD ∨ 0x46FA0000 < i.toNat → iWord i = 100) ∧
    (0x3DCCCCCD ≤ i.toNat → i.toNat ≤ 0x46FA0000 → 100 ≤ (iWord i).toNat ∧ (iWord i).toNat ≤ 32000000)

/-- R157 inside the window: with `x` the value of the pattern, `q * 2^e` is the 24-bit number nearest `x * 1000`, ties to even,
and the word is its integer part (D10; log 10). -/
def Obligations.GainIWordIsTruncatedBinary32Product : Prop :=
  ∀ (i : Word) (x : ℚ), 0x3DCCCCCD ≤ i.toNat → i.toNat ≤ 0x46FA0000 →
    x = ((2 : ℚ) ^ 23 + ((i.toNat % 2 ^ 23 : Nat) : ℚ)) * (2 : ℚ) ^ (((i.toNat / 2 ^ 23 : Nat) : ℤ) - 150) →
    ∃ (q : Nat) (e : ℤ),
      (2 : ℚ) ^ 23 * (2 : ℚ) ^ e ≤ x * 1000 ∧ x * 1000 < (2 : ℚ) ^ 24 * (2 : ℚ) ^ e ∧
      2 * |x * 1000 - (q : ℚ) * (2 : ℚ) ^ e| ≤ (2 : ℚ) ^ e ∧
      (2 * |x * 1000 - (q : ℚ) * (2 : ℚ) ^ e| = (2 : ℚ) ^ e → q % 2 = 0) ∧
      ((iWord i).toNat : ℤ) = ⌊(q : ℚ) * (2 : ℚ) ^ e⌋

/-- R160: the constant frame of `GetControllerGain`. -/
def Obligations.GetControllerGainSendsConstant : Prop :=
  ∀ s : State, exec .getControllerGain s = .next { s with result := .encoded [0xAA, 0x55, 4, 14, 1, 0xFF, 0xFF] }

/-- R84, R86: the length of each command's frame, and that six are well formed and `RequestExtra`'s is not. -/
def Obligations.SixOfSevenFramesAreWellFormed : Prop :=
  ∀ (i : Instr) (c : Command) (s t : State) (F : List Byte), commandOf i = some c → exec i s = .next t →
    t.result = .encoded F → F.length = frameBytes c ∧ (wellFormedFrame F = true ↔ c ≠ .requestExtra)

/-- R99: the first five bytes of a frame, and its Id byte alone, name the command that sent it. -/
def Obligations.FrameHeaderNamesItsCommand : Prop :=
  ∀ (i : Instr) (c : Command) (s t : State) (F : List Byte), commandOf i = some c → exec i s = .next t →
    t.result = .encoded F → commandOfHeader (F.take 5) = some c ∧ ∃ id, F[3]? = some id ∧ commandOfId id = some c

/-! ### StreamDecoder -/

/-- `DECODE` in both uses (R24): carried, `RES` is the residue and takes the new one; function use, the residue is the operand and
only the results change (R198). -/
def Obligations.DecodeCompletesInBothUses : Prop :=
  (∀ (newBytes : List Byte) (s : State), exec (.decode newBytes .carried) s =
    .next { s with res := (decodeStream newBytes s.res).newResidue, result := .decoded (decodeStream newBytes s.res) }) ∧
  (∀ (newBytes residue : List Byte) (s : State), exec (.decode newBytes (.supplied residue)) s =
    .next { s with result := .decoded (decodeStream newBytes residue) })

/-- "Effective input buffer = residue ++ newBytes" (R180): where the one ends and the other begins makes no difference. -/
def Obligations.DecodeSeesOnlyTheConcatenation : Prop :=
  ∀ newBytes residue newBytes' residue' : List Byte, residue ++ newBytes = residue' ++ newBytes' →
    decodeStream newBytes residue = decodeStream newBytes' residue'

/-- R185: from any scan, the bytes before the first marker are dropped; they reach no frame, no residue and no count. -/
def Obligations.DecodeDropsNoiseBeforeMarker : Prop :=
  ∀ (s : Scan) (noise rest : List Byte), s.buf.drop s.cur = noise ++ 0xAA :: 0x55 :: rest →
    (∀ pre post, noise ++ 0xAA :: 0x55 :: rest = pre ++ 0xAA :: 0x55 :: post → noise.length ≤ pre.length) →
    finishScan s = finishScan { s with cur := s.cur + noise.length }

/-- R186 (D14): where no marker is left the call ends; a last byte `AA` is the residue, else it is empty. -/
def Obligations.DecodeEndsWhereNoMarkerIsLeft : Prop :=
  ∀ s : Scan, (∀ pre post, s.buf.drop s.cur ≠ pre ++ 0xAA :: 0x55 :: post) →
    finishScan s = {
      frames := s.frames
      newResidue := if (s.buf.drop s.cur).getLast? = some 0xAA then [0xAA] else []
      mismatches := s.mismatches
      badLengths := s.badLengths
      noCompleteFrame := s.frames.isEmpty
      incompleteFrame := decide ((s.buf.drop s.cur).getLast? = some 0xAA) }

/-- R188 (D12): a marker without its Length byte is the residue. -/
def Obligations.DecodeKeepsBareMarker : Prop :=
  ∀ s : Scan, s.buf.drop s.cur = [0xAA, 0x55] →
    finishScan s = ⟨s.frames, [0xAA, 0x55], s.mismatches, s.badLengths, s.frames.isEmpty, true⟩

/-- R190 (D13): a marker with a Length below 3 is counted and passed over by one byte, whatever follows it. -/
def Obligations.DecodeSkipsBadLength : Prop :=
  ∀ (s : Scan) (L : Byte) (rest : List Byte), s.buf.drop s.cur = 0xAA :: 0x55 :: L :: rest → L.toNat < 3 →
    finishScan s = finishScan { s with cur := s.cur + 1, badLengths := s.badLengths + 1 }

/-- R192: a candidate of which fewer than `3 + L` bytes are there ends the call and is kept whole, from the marker to the last
byte, whatever complete frames stand inside it. -/
def Obligations.DecodeKeepsIncompleteBody : Prop :=
  ∀ (s : Scan) (L : Byte) (body : List Byte), s.buf.drop s.cur = 0xAA :: 0x55 :: L :: body → 3 ≤ L.toNat →
    body.length < L.toNat →
    finishScan s = ⟨s.frames, 0xAA :: 0x55 :: L :: body, s.mismatches, s.badLengths, s.frames.isEmpty, true⟩

/-- R194: a candidate whose checksum matches is emitted as `(id, payload)`, after the frames already there, and consumed whole,
whatever markers stand in its payload. That every Id is accepted and the Size byte not examined is the spec's own decision D15
(log 14). -/
def Obligations.DecodeAcceptsMatchingFrame : Prop :=
  ∀ (s : Scan) (id size : Byte) (payload rest : List Byte), payload.length ≤ 252 →
    s.buf.drop s.cur = inboundFrame id size payload ++ rest →
    finishScan s = finishScan { s with cur := s.cur + (payload.length + 6), frames := s.frames ++ [⟨id, payload⟩] }

/-- R196: a complete candidate whose trailing byte is not the fold of its payload is counted and passed over by one byte; its other
bytes are scanned again. -/
def Obligations.DecodeSkipsMismatchByOneByte : Prop :=
  ∀ (s : Scan) (id size c : Byte) (payload rest : List Byte), payload.length ≤ 252 → c ≠ xorFold payload →
    s.buf.drop s.cur = [0xAA, 0x55, BitVec.ofNat 8 (payload.length + 3), id, size] ++ payload ++ c :: rest →
    finishScan s = finishScan { s with cur := s.cur + 1, mismatches := s.mismatches + 1 }

/-- R197, R199: a pass that does not end the call leaves the buffer and raises the cursor, which never passes the end. -/
def Obligations.CursorOnlyAdvances : Prop :=
  ∀ s s' : Scan, scanPass s = .move s' → s'.buf = s.buf ∧ s.cur < s'.cur ∧ s'.cur ≤ s.buf.length

/-- R197: the loop ends within `n + 1` passes, so the model's bound on them (log 15) cuts no call short. -/
def Obligations.LoopEndsWithinItsPasses : Prop :=
  ∀ (s : Scan) (k : Nat), scanLoop (s.buf.length + 1 + k) s = scanLoop (s.buf.length + 1) s

/-- R208: the small steps, closed, are the loop. -/
def Obligations.SmallStepsAgreeWithLoop : Prop :=
  ∀ s : Scan, scanResult (scanSteps (2 * (s.buf.length + 1)) s) = finishScan s

/-- R200: cutting the input into two chunks changes neither the frames, nor the last residue, nor the sums of the counts. -/
def Obligations.DecodeIsChunkBoundaryIndependent : Prop :=
  ∀ r a b : List Byte,
    (decodeStream (a ++ b) r).frames =
      (decodeStream a r).frames ++ (decodeStream b (decodeStream a r).newResidue).frames ∧
    (decodeStream (a ++ b) r).newResidue = (decodeStream b (decodeStream a r).newResidue).newResidue ∧
    (decodeStream (a ++ b) r).mismatches =
      (decodeStream a r).mismatches + (decodeStream b (decodeStream a r).newResidue).mismatches ∧
    (decodeStream (a ++ b) r).badLengths =
      (decodeStream a r).badLengths + (decodeStream b (decodeStream a r).newResidue).badLengths

/-- R200, R202: the same for any number of chunks, single bytes among them. -/
def Obligations.DecodeOfChunksIsDecodeOfWhole : Prop :=
  ∀ (c : List Byte) (cs : List (List Byte)) (r : List Byte),
    (decodeChunks (c :: cs) r).1.flatMap (fun x => x.frames) = (decodeStream ((c :: cs).flatten) r).frames ∧
    (decodeChunks (c :: cs) r).2 = (decodeStream ((c :: cs).flatten) r).newResidue ∧
    ((decodeChunks (c :: cs) r).1.map (fun x => x.mismatches)).sum = (decodeStream ((c :: cs).flatten) r).mismatches ∧
    ((decodeChunks (c :: cs) r).1.map (fun x => x.badLengths)).sum = (decodeStream ((c :: cs).flatten) r).badLengths

/-- R24: a run of `DECODE`s in carried use threads the residue through `RES` exactly as the caller would in function use. -/
def Obligations.CarriedRunThreadsTheResidue : Prop :=
  ∀ (cs : List (List Byte)) (s : State), s.requests = cs.map (fun c => .operation (.decode c .carried)) →
    ∃ t : State, Sys2Proof.core.run cs.length s = .next t ∧ t.res = (decodeChunks cs s.res).2 ∧ t.requests = []

/-- R201: a residue that `DECODE` returned, decoded with no new bytes, gives no frame, no count, and itself. -/
def Obligations.ReturnedResidueIsFixed : Prop :=
  ∀ newBytes r : List Byte,
    decodeStream [] (decodeStream newBytes r).newResidue =
      ⟨[], (decodeStream newBytes r).newResidue, 0, 0, true, !(decodeStream newBytes r).newResidue.isEmpty⟩

/-- R23, R203: a returned residue has one of the four shapes and at most 257 bytes, whatever was decoded. -/
def Obligations.ReturnedResidueHasItsShape : Prop :=
  ∀ newBytes r : List Byte, residueShape (decodeStream newBytes r).newResidue = true ∧
    (decodeStream newBytes r).newResidue.length ≤ 257

/-- R28, R23: the phase read off a residue is the phase of a scan that begins with it. -/
def Obligations.PhaseIsReadOffTheResidue : Prop :=
  ∀ r : List Byte, residueShape r = true → scanPhase (scanStart [] r) = some (residuePhase r)

/-- R28, from any scan: searching while no marker stands at the cursor, though one may stand further on; length-pending at a
marker without its Length; body-pending at a marker with Length `L`, below 3 or not, and fewer than `3 + L` bytes. With
all of them there R28 names no phase, and the model gives none (log 18). -/
def Obligations.PhaseFollowsCursorAndBuffer : Prop :=
  ∀ s : Scan,
    ((∀ rest, s.buf.drop s.cur ≠ 0xAA :: 0x55 :: rest) → scanPhase s = some .searching) ∧
    (s.buf.drop s.cur = [0xAA, 0x55] → scanPhase s = some .lengthPending) ∧
    (∀ (L : Byte) (body : List Byte), s.buf.drop s.cur = 0xAA :: 0x55 :: L :: body →
      scanPhase s = if body.length < L.toNat then some .bodyPending else none)

/-- R204: every frame takes at least six bytes and every rejected marker at least one, none of them kept. -/
def Obligations.DecodeOutputIsBoundedByInput : Prop :=
  ∀ newBytes r : List Byte,
    6 * (decodeStream newBytes r).frames.length + (decodeStream newBytes r).mismatches +
      (decodeStream newBytes r).badLengths + (decodeStream newBytes r).newResidue.length ≤ (r ++ newBytes).length

/-- R206: empty input with empty residue yields nothing, and no new bytes leave a returned residue unchanged. -/
def Obligations.EmptyInputYieldsNothing : Prop :=
  decodeStream [] [] = ⟨[], [], 0, 0, true, false⟩ ∧
  ∀ newBytes r : List Byte,
    (decodeStream [] (decodeStream newBytes r).newResidue).newResidue = (decodeStream newBytes r).newResidue

/-- R198, R237 (D16, D17, D30): the two bits of a call, and the codes of its conditions and of the encoder's status. -/
def Obligations.ConditionCodesFollowTheResults : Prop :=
  (∀ newBytes r : List Byte,
    (decodeStream newBytes r).cond.getLsbD 0 = (decodeStream newBytes r).frames.isEmpty ∧
    (decodeStream newBytes r).cond.getLsbD 1 = !(decodeStream newBytes r).newResidue.isEmpty ∧
    (decodeStream newBytes r).cond.getLsbD 2 = decide (0 < (decodeStream newBytes r).mismatches) ∧
    (decodeStream newBytes r).cond.getLsbD 3 = decide (0 < (decodeStream newBytes r).badLengths)) ∧
  (∀ frame : List Byte, Result.statusCode (.encoded frame) = some 0#1) ∧ Result.statusCode .invalidInput = some 1#1

/-- R162: the block's own decoder takes each command's frame as exactly one feedback frame with the payload that was pushed,
except that `RequestExtra`'s stays pending. -/
def Obligations.EncodedFramesDecodeToThemselves : Prop :=
  ∀ (i : Instr) (c : Command) (s t : State) (F : List Byte), commandOf i = some c → exec i s = .next t →
    t.result = .encoded F →
    (c ≠ .requestExtra → decodeStream F [] = ⟨[⟨(grammar c).id, (F.drop 5).dropLast⟩], [], 0, 0, false, false⟩) ∧
    (c = .requestExtra → decodeStream F [] = ⟨[], F, 0, 0, true, true⟩)

/-- R279: after a `RequestExtra` frame the next byte on the line is taken as its checksum: only `00` gets it accepted, with its
flag byte twice as payload; any other byte has it dropped, and is itself decoded with what follows. -/
def Obligations.RequestExtraTakesTheNextByte : Prop :=
  ∀ (hwVer fwVer udid : Bool) (x : Byte) (rest : List Byte),
    (x = 0 → decodeStream (requestExtraFrame hwVer fwVer udid ++ x :: rest) [] =
      { decodeStream rest [] with
        frames := ⟨9, [requestExtraFlags hwVer fwVer udid, requestExtraFlags hwVer fwVer udid]⟩ ::
          (decodeStream rest []).frames
        noCompleteFrame := false }) ∧
    (x ≠ 0 → decodeStream (requestExtraFrame hwVer fwVer udid ++ x :: rest) [] =
      { decodeStream (x :: rest) [] with mismatches := (decodeStream (x :: rest) []).mismatches + 1 })

/-- R205: one corrupted payload byte costs the frame, counted as one mismatch and rescanned from its second byte; where no marker
stands in its other bytes, decoding goes on at the next marker as if it had been noise. -/
def Obligations.CorruptedPayloadByteCostsOneFrame : Prop :=
  ∀ (id size x y : Byte) (p q bad rest : List Byte), (p ++ x :: q).length ≤ 252 → x ≠ y →
    bad = [0x55, BitVec.ofNat 8 ((p ++ x :: q).length + 3), id, size] ++ (p ++ y :: q) ++ [xorFold (p ++ x :: q)] →
    decodeStream (0xAA :: bad ++ rest) [] =
      { decodeStream (bad ++ rest) [] with mismatches := (decodeStream (bad ++ rest) []).mismatches + 1 } ∧
    (∀ rest', rest = 0xAA :: 0x55 :: rest' →
      (∀ pre post, bad ++ rest = pre ++ 0xAA :: 0x55 :: post → bad.length ≤ pre.length) →
      decodeStream (0xAA :: bad ++ rest) [] =
        { decodeStream rest [] with mismatches := (decodeStream rest []).mismatches + 1 })

/-! ### Request images (the model's own, log 3 and log 4) -/

/-- Decoding an encoded request gives it back, with every operand at every value, byte sequences of every length among them. The
images are the model's own, since OPSEL is open (D28; log 3); their headers are those of R88. -/
def Obligations.EncodedRequestsDecodeBack : Prop :=
  ∀ i : Instr, i.wellFormed = true → decodeRequest (encodeRequest i) = .ok i

/-- Each image has one meaning: what decodes is the image of what it decodes to (log 3). -/
def Obligations.DecodedImagesAreCanonical : Prop :=
  ∀ (b : List Byte) (i : Instr), decodeRequest b = .ok i → encodeRequest i = b

/-- A few patterns of opcode_table.json, byte 0 first (R99; log 4), and a few images written out, decode to their operation. -/
def Obligations.TablePatternsDecode : Prop :=
  decodeTableWord 40 0xAA55070104 = some (.baseControl 0 0) ∧
  decodeTableWord 40 0xAA55040401 = some (.soundSequence 0) ∧
  decodeTableWord 40 0xAA55040E01 = some .getControllerGain ∧
  decodeTableWord 16 0xAA55 = some (.decode [] .carried) ∧
  decodeRequest [0xAA, 0x55, 0x07, 0x01, 0x04, 0x34, 0x12, 0xFE, 0xFF] = .ok (.baseControl 0x1234 0xFFFE) ∧
  decodeRequest [0xAA, 0x55, 0x05, 0x09, 0x02, 0x81] = .ok (.requestExtra true false true)
end

