-- ==== Sys2Proof/Laws/Bytes.lean ====
section
/-! SUPPORT. What the byte-sequence primitives, the checksum and the frame builder do, said once. -/

namespace Sys2Proof.Machine

@[simp] theorem slice_length (s : List Byte) (a b : Nat) : (slice s a b).length = min b s.length - a := by
  simp [slice]

/-- A slice to the end is a drop. -/
@[simp] theorem slice_to_end (s : List Byte) (a : Nat) : slice s a s.length = s.drop a := by
  simp [slice]

/-- A slice of a later length is a take of a drop. -/
theorem slice_eq_take_drop (s : List Byte) (a k : Nat) : slice s a (a + k) = (s.drop a).take k := by
  simp [slice, List.drop_take]

theorem byteAt_drop (s : List Byte) (a k : Nat) : byteAt (s.drop a) k = byteAt s (a + k) := by
  simp [byteAt, List.getD_eq_getElem?_getD]

@[simp] theorem byteAt_cons_zero (b : Byte) (s : List Byte) : byteAt (b :: s) 0 = b := rfl

@[simp] theorem byteAt_cons_succ (b : Byte) (s : List Byte) (k : Nat) : byteAt (b :: s) (k + 1) = byteAt s k := rfl

/-- Inside the buffer, `byteAt` is the byte that stands there. -/
theorem byteAt_eq (s : List Byte) (k : Nat) (h : k < s.length) : s[k]? = some (byteAt s k) := by
  simp [byteAt, h]

/-- `MemRead(B, off, 1)` "is the plain byte `B[off]`" (00_scope.md R10). -/
theorem memRead_one (B : List Byte) (off : Nat) (h : off < B.length) :
    memRead B off 1 = some (byteAt B off).toNat := by
  have hs : slice B off (off + 1) = [byteAt B off] := by
    rw [slice_eq_take_drop]
    simp [List.take_one, byteAt, h]
  simp [memRead, hs, leValue, Nat.succ_le_of_lt h]

/-- `MemRead` is defined exactly inside the buffer (R56). -/
theorem memRead_isSome (B : List Byte) (off n : Nat) : (memRead B off n).isSome ↔ off + n ≤ B.length := by
  unfold memRead; split <;> simp_all

@[simp] theorem le16_length (v : Half) : (le16 v).length = 2 := rfl
@[simp] theorem le32_length (v : Word) : (le32 v).length = 4 := rfl

/-- Reading back the bytes of `le16` gives the number (R52, R56). -/
theorem leValue_le16 (v : Half) : leValue (le16 v) = v.toNat := by
  have := v.isLt
  simp [le16, leValue, BitVec.extractLsb'_toNat, Nat.shiftRight_eq_div_pow]
  omega

/-- Reading back the bytes of `le32` gives the number (R52, R56). -/
theorem leValue_le32 (v : Word) : leValue (le32 v) = v.toNat := by
  have := v.isLt
  simp [le32, leValue, BitVec.extractLsb'_toNat, Nat.shiftRight_eq_div_pow]
  omega

theorem foldl_xor_start (s : List Byte) (a : Byte) :
    s.foldl (fun acc b => acc ^^^ b) a = a ^^^ xorFold s := by
  induction s generalizing a with
  | nil => simp [xorFold]
  | cons b s ih =>
    rw [xorFold, List.foldl_cons, ih, List.foldl_cons, ih (0 ^^^ b)]
    simp [BitVec.xor_assoc]

@[simp] theorem xorFold_nil : xorFold [] = 0 := rfl

@[simp] theorem xorFold_cons (b : Byte) (s : List Byte) : xorFold (b :: s) = b ^^^ xorFold s := by
  rw [xorFold, List.foldl_cons, foldl_xor_start]
  simp

@[simp] theorem xorFold_append (s t : List Byte) : xorFold (s ++ t) = xorFold s ^^^ xorFold t := by
  induction s with
  | nil => simp
  | cons b s ih => simp [ih, BitVec.xor_assoc]

/-- The two clauses of R120 agree: the checksum is the fold from offset 5 for every length. -/
theorem checksum_eq (buf : List Byte) : checksum buf = xorFold (buf.drop 5) := by
  unfold checksum
  split
  · rw [List.drop_eq_nil_of_le (by omega)]; rfl
  · simp [Config.offPayload]

/-- What one byte does to the streaming checksum (R124). -/
theorem csuFeed_cases (c : Csu) (b : Byte) :
    (5 ≤ c.idx.toNat ∧ csuFeed c b = { acc := c.acc ^^^ b, idx := c.idx }) ∨
    (c.idx.toNat < 5 ∧ csuFeed c b = { acc := c.acc, idx := c.idx + 1 }) := by
  unfold csuFeed
  by_cases h : 5 ≤ c.idx.toNat
  · left; simp [h, Nat.not_lt.mpr h]
  · right; simp [h, Nat.lt_of_not_le h]

theorem foldl_push1 (F s : List Byte) : s.foldl push1 F = F ++ s := by
  induction s generalizing F with
  | nil => simp
  | cons b s ih => simp [ih, push1]

/-- Every frame an encoder builds (R140): header, payload, and the fold of the payload. -/
theorem build_eq (c : Command) (payload : List Byte) :
    build c payload =
      [0xAA, 0x55, (grammar c).length, (grammar c).id, (grammar c).size] ++ payload ++ [xorFold payload] := by
  simp [build, foldl_push1, push1, checksum_eq, Config.marker0, Config.marker1]

/-- "The result always has `5 + |payload_bytes| + 1` bytes" (R140). -/
@[simp] theorem build_length (c : Command) (payload : List Byte) : (build c payload).length = payload.length + 6 := by
  simp [build_eq]

/-- An encoder operation always completes, and changes the result ports only (R141). -/
theorem deliverEncoder_next (r : Except Condition (List Byte)) (s : State) :
    (∃ frame, r = .ok frame ∧ deliverEncoder r s = .next (deliver (.encoded frame) s)) ∨
    (∃ c, r = .error c ∧ deliverEncoder r s = .next (deliver .invalidInput s)) := by
  cases r with
  | ok frame => exact .inl ⟨frame, rfl, rfl⟩
  | error c => exact .inr ⟨c, rfl, rfl⟩

/-- A load of `RES` is done or turned away, by its length (R24). -/
theorem loadResidue_cases (v : List Byte) (s : State) :
    (v.length ≤ 257 ∧ loadResidue v s = .next (deliver .idle (writeResidue v s))) ∨
    (257 < v.length ∧ loadResidue v s = .refused .residueTooLong) := by
  unfold loadResidue Config.resMax
  split
  · exact .inl ⟨by assumption, rfl⟩
  · exact .inr ⟨by omega, rfl⟩

end Sys2Proof.Machine
end

