-- ==== Sys2Proof/Laws/State.lean ====
section
/-! SUPPORT. One lemma per field per update, of the state, of the scan and of the checksum registers, so that no proof unfolds
a record update. -/

namespace Sys2Proof.Machine

variable (s : State) (r : Result) (v : List Byte)

@[simp] theorem deliver_res : (deliver r s).res = s.res := rfl
@[simp] theorem deliver_result : (deliver r s).result = r := rfl
@[simp] theorem deliver_requests : (deliver r s).requests = s.requests := rfl

@[simp] theorem writeResidue_res : (writeResidue v s).res = v := rfl
@[simp] theorem writeResidue_result : (writeResidue v s).result = s.result := rfl
@[simp] theorem writeResidue_requests : (writeResidue v s).requests = s.requests := rfl

@[simp] theorem readOutResidue_res : (readOutResidue s).res = s.res := rfl
@[simp] theorem readOutResidue_result : (readOutResidue s).result = .residue s.res := rfl
@[simp] theorem readOutResidue_requests : (readOutResidue s).requests = s.requests := rfl

@[simp] theorem resetBlock_res : (resetBlock s).res = [] := rfl
@[simp] theorem resetBlock_result : (resetBlock s).result = .idle := rfl
@[simp] theorem resetBlock_requests : (resetBlock s).requests = s.requests := rfl

@[simp] theorem requestImage_res : (requestImage v s).res = s.res := rfl
@[simp] theorem requestImage_result : (requestImage v s).result = s.result := rfl
@[simp] theorem requestImage_requests : (requestImage v s).requests = .image v :: s.requests := rfl

@[simp] theorem readResidue_eq : readResidue s = s.res := rfl

@[simp] theorem reset_res : State.reset.res = [] := rfl
@[simp] theorem reset_result : State.reset.result = .idle := rfl
@[simp] theorem reset_requests : State.reset.requests = [] := rfl

/-- Results on the ports are overwritten by the next ones. -/
@[simp] theorem deliver_deliver (r' : Result) : deliver r (deliver r' s) = deliver r s := rfl

variable (c : Scan) (m : Nat) (f : FeedbackFrame) (newBytes residue : List Byte)

@[simp] theorem setCur_buf : (setCur m c).buf = c.buf := rfl
@[simp] theorem setCur_cur : (setCur m c).cur = m := rfl
@[simp] theorem setCur_frames : (setCur m c).frames = c.frames := rfl
@[simp] theorem setCur_mismatches : (setCur m c).mismatches = c.mismatches := rfl
@[simp] theorem setCur_badLengths : (setCur m c).badLengths = c.badLengths := rfl

@[simp] theorem emit_buf : (emit f c).buf = c.buf := rfl
@[simp] theorem emit_cur : (emit f c).cur = c.cur := rfl
@[simp] theorem emit_frames : (emit f c).frames = c.frames ++ [f] := rfl
@[simp] theorem emit_mismatches : (emit f c).mismatches = c.mismatches := rfl
@[simp] theorem emit_badLengths : (emit f c).badLengths = c.badLengths := rfl

@[simp] theorem raiseInScan_buf (k : Condition) : (raiseInScan k c).buf = c.buf := by cases k <;> rfl
@[simp] theorem raiseInScan_cur (k : Condition) : (raiseInScan k c).cur = c.cur := by cases k <;> rfl
@[simp] theorem raiseInScan_frames (k : Condition) : (raiseInScan k c).frames = c.frames := by cases k <;> rfl
@[simp] theorem raiseInScan_mismatch_mismatches :
    (raiseInScan .checksumMismatch c).mismatches = c.mismatches + 1 := rfl
@[simp] theorem raiseInScan_mismatch_badLengths :
    (raiseInScan .checksumMismatch c).badLengths = c.badLengths := rfl
@[simp] theorem raiseInScan_badLength_mismatches : (raiseInScan .badLength c).mismatches = c.mismatches := rfl
@[simp] theorem raiseInScan_badLength_badLengths :
    (raiseInScan .badLength c).badLengths = c.badLengths + 1 := rfl

@[simp] theorem scanStart_buf : (scanStart newBytes residue).buf = residue ++ newBytes := rfl
@[simp] theorem scanStart_cur : (scanStart newBytes residue).cur = 0 := rfl
@[simp] theorem scanStart_frames : (scanStart newBytes residue).frames = [] := rfl
@[simp] theorem scanStart_mismatches : (scanStart newBytes residue).mismatches = 0 := rfl
@[simp] theorem scanStart_badLengths : (scanStart newBytes residue).badLengths = 0 := rfl

variable (x : Scan × List Byte)

@[simp] theorem scanResult_frames : (scanResult x).frames = x.1.frames := rfl
@[simp] theorem scanResult_newResidue : (scanResult x).newResidue = x.2 := rfl
@[simp] theorem scanResult_mismatches : (scanResult x).mismatches = x.1.mismatches := rfl
@[simp] theorem scanResult_badLengths : (scanResult x).badLengths = x.1.badLengths := rfl
@[simp] theorem scanResult_noCompleteFrame : (scanResult x).noCompleteFrame = x.1.frames.isEmpty := rfl
@[simp] theorem scanResult_incompleteFrame : (scanResult x).incompleteFrame = !x.2.isEmpty := rfl

@[simp] theorem csuClear_acc : csuClear.acc = 0 := rfl
@[simp] theorem csuClear_idx : csuClear.idx = 0 := rfl

end Sys2Proof.Machine
end

