-- ==== Sys2Proof/Laws/Decoder.lean ====
section
/-! SUPPORT. What the scan of the stream decoder can do, said once: where a marker is found, the five ways a candidate is
judged, what a pass comes to, and how the cursor moves. -/

namespace Sys2Proof.Machine

theorem markerAt_drop (B : List Byte) (a j : Nat) : markerAt (B.drop a) j = markerAt B (a + j) := by
  simp only [markerAt, byteAt_drop, List.length_drop, Nat.add_assoc]
  congr 2
  apply propext
  omega

@[simp] theorem markerAt_nil (j : Nat) : markerAt [] j = false := by simp [markerAt]

@[simp] theorem markerAt_cons_succ (b : Byte) (s : List Byte) (j : Nat) :
    markerAt (b :: s) (j + 1) = markerAt s j := by
  simp [markerAt]

theorem markerAt_cons_cons_zero (a b : Byte) (s : List Byte) :
    markerAt (a :: b :: s) 0 = true ↔ a = Config.marker0 ∧ b = Config.marker1 := by
  simp [markerAt, byteAt]

/-- The offset found is the least at which a marker stands. -/
theorem markerOffset_some {s : List Byte} {m : Nat} (h : markerOffset s = some m) :
    markerAt s m = true ∧ ∀ j < m, markerAt s j = false := by
  induction s generalizing m with
  | nil => simp [markerOffset] at h
  | cons a s ih =>
    cases s with
    | nil => simp [markerOffset] at h
    | cons b t =>
      rw [markerOffset] at h
      split at h
      · next hm =>
        cases h
        exact ⟨(markerAt_cons_cons_zero a b t).2 hm, by simp⟩
      · next hm =>
        obtain ⟨k, hk, rfl⟩ := Option.map_eq_some_iff.1 h
        refine ⟨by simpa using (ih hk).1, fun j hj => ?_⟩
        cases j with
        | zero => exact Bool.eq_false_iff.2 (fun hz => hm ((markerAt_cons_cons_zero a b t).1 hz))
        | succ j => simpa using (ih hk).2 j (by omega)

/-- No offset is found exactly when no marker stands anywhere. -/
theorem markerOffset_none {s : List Byte} (h : markerOffset s = none) (j : Nat) : markerAt s j = false := by
  induction s generalizing j with
  | nil => simp
  | cons a s ih =>
    cases s with
    | nil => simp [markerAt]
    | cons b t =>
      rw [markerOffset] at h
      split at h
      · cases h
      · next hm =>
        cases j with
        | zero => exact Bool.eq_false_iff.2 (fun hz => hm ((markerAt_cons_cons_zero a b t).1 hz))
        | succ j => simpa using ih (by simpa using h) j

/-- The scan of step 1 (R184): "the least `j >= cur` at which a marker stands". -/
theorem findMarker_some {B : List Byte} {cur m : Nat} (h : findMarker B cur = some m) :
    cur ≤ m ∧ markerAt B m = true ∧ ∀ j, cur ≤ j → j < m → markerAt B j = false := by
  obtain ⟨k, hk, rfl⟩ := Option.map_eq_some_iff.1 h
  have hs := markerOffset_some hk
  rw [markerAt_drop] at hs
  refine ⟨by omega, hs.1, fun j hj hlt => ?_⟩
  have := hs.2 (j - cur) (by omega)
  rwa [markerAt_drop, show cur + (j - cur) = j by omega] at this

/-- Step 1 finds nothing exactly when no marker stands at or after the cursor (R186). -/
theorem findMarker_none {B : List Byte} {cur : Nat} (h : findMarker B cur = none) (j : Nat) (hj : cur ≤ j) :
    markerAt B j = false := by
  have := markerOffset_none (by simpa [findMarker] using h) (j - cur)
  rwa [markerAt_drop, show cur + (j - cur) = j by omega] at this

/-- A marker that stands is found. -/
theorem findMarker_of_markerAt {B : List Byte} {cur : Nat} (h : markerAt B cur = true) :
    findMarker B cur = some cur := by
  cases hf : findMarker B cur with
  | none => simp [findMarker_none hf cur le_rfl] at h
  | some m =>
    have hs := findMarker_some hf
    rcases Nat.lt_or_ge cur m with hlt | hge
    · simp [hs.2.2 cur le_rfl hlt] at h
    · rw [show m = cur by omega]

theorem markerAt_lt {B : List Byte} {j : Nat} (h : markerAt B j = true) : j + 1 < B.length := by
  simp [markerAt] at h
  exact h.1

/-- The five outcomes of steps 2 to 4 at a marker, in the order the tests are made (R239). -/
theorem judgeCandidate_cases (s : Scan) :
    (s.buf.length - s.cur < 3 ∧ judgeCandidate s = .stop (s.buf.drop s.cur)) ∨
    (3 ≤ s.buf.length - s.cur ∧ (byteAt s.buf (s.cur + 2)).toNat < 3 ∧
      judgeCandidate s = .move (setCur (s.cur + 1) (raiseInScan .badLength s))) ∨
    (3 ≤ (byteAt s.buf (s.cur + 2)).toNat ∧ s.buf.length - s.cur < 3 + (byteAt s.buf (s.cur + 2)).toNat ∧
      judgeCandidate s = .stop (s.buf.drop s.cur)) ∨
    (3 ≤ (byteAt s.buf (s.cur + 2)).toNat ∧ 3 + (byteAt s.buf (s.cur + 2)).toNat ≤ s.buf.length - s.cur ∧
      judgeCandidate s = .move (setCur (s.cur + (3 + (byteAt s.buf (s.cur + 2)).toNat))
        (emit ⟨byteAt s.buf (s.cur + 3), slice s.buf (s.cur + 5) (s.cur + 2 + (byteAt s.buf (s.cur + 2)).toNat)⟩ s)) ∧
      xorFold (slice s.buf (s.cur + 5) (s.cur + 2 + (byteAt s.buf (s.cur + 2)).toNat)) =
        byteAt s.buf (s.cur + 2 + (byteAt s.buf (s.cur + 2)).toNat)) ∨
    (3 ≤ (byteAt s.buf (s.cur + 2)).toNat ∧ 3 + (byteAt s.buf (s.cur + 2)).toNat ≤ s.buf.length - s.cur ∧
      judgeCandidate s = .move (setCur (s.cur + 1) (raiseInScan .checksumMismatch s)) ∧
      xorFold (slice s.buf (s.cur + 5) (s.cur + 2 + (byteAt s.buf (s.cur + 2)).toNat)) ≠
        byteAt s.buf (s.cur + 2 + (byteAt s.buf (s.cur + 2)).toNat)) := by
  generalize hL : (byteAt s.buf (s.cur + 2)).toNat = L
  have hbyte : ∀ k, k < 3 + L → byteAt (slice s.buf s.cur (s.cur + (3 + L))) k = byteAt s.buf (s.cur + k) := by
    intro k hk
    rw [slice_eq_take_drop, ← byteAt_drop]
    simp [byteAt, List.getD_eq_getElem?_getD, hk]
  have hpay : slice (slice s.buf s.cur (s.cur + (3 + L))) 5 (3 + L - 1) = slice s.buf (s.cur + 5) (s.cur + 2 + L) := by
    rw [slice_eq_take_drop]
    simp only [slice, List.drop_take, List.drop_drop, List.take_take]
    congr 1
    omega
  have hsum : checksum (slice (slice s.buf s.cur (s.cur + (3 + L))) 0 (3 + L - 1)) =
      xorFold (slice s.buf (s.cur + 5) (s.cur + 2 + L)) := by
    rw [checksum_eq, ← hpay]
    simp [slice]
  simp only [judgeCandidate, Config.hdrLen, Config.offLength, Config.minLength, Config.offId, Config.offPayload, hL,
    slice_to_end, hsum, hpay]
  split
  · exact .inl ⟨by assumption, rfl⟩
  split
  · exact .inr (.inl ⟨by omega, by assumption, rfl⟩)
  split
  · exact .inr (.inr (.inl ⟨by omega, by assumption, rfl⟩))
  rw [hbyte (3 + L - 1) (by omega), hbyte 3 (by omega), show s.cur + (3 + L - 1) = s.cur + 2 + L by omega]
  split
  · exact .inr (.inr (.inr (.inl ⟨by omega, by omega, rfl, by assumption⟩)))
  · exact .inr (.inr (.inr (.inr ⟨by omega, by omega, rfl, by assumption⟩)))

/-- What one pass of the loop comes to: no marker is left, or the candidate at the first marker is judged (R182). -/
theorem scanPass_cases (s : Scan) :
    (findMarker s.buf s.cur = none ∧ scanPass s = .stop (trailingResidue s)) ∨
    (∃ m, findMarker s.buf s.cur = some m ∧ scanPass s = judgeCandidate (setCur m s)) := by
  unfold scanPass
  cases h : findMarker s.buf s.cur with
  | none => exact .inl ⟨rfl, rfl⟩
  | some m => exact .inr ⟨m, rfl, rfl⟩

/-- A candidate that is judged and does not end the call raises the cursor, and the buffer stays. -/
theorem judgeCandidate_move {s s' : Scan} (h : judgeCandidate s = .move s') :
    s'.buf = s.buf ∧ s.cur < s'.cur ∧ s'.cur ≤ s.buf.length := by
  rcases judgeCandidate_cases s with ⟨_, h1⟩ | ⟨hn, _, h1⟩ | ⟨_, _, h1⟩ | ⟨_, hn, h1, _⟩ | ⟨_, hn, h1, _⟩ <;>
    rw [h1] at h <;> cases h <;> simp <;> omega

/-- The two ways `trailingResidue` answers (R186). -/
theorem trailingResidue_cases (s : Scan) :
    (s.cur < s.buf.length ∧ byteAt s.buf (s.buf.length - 1) = 0xAA ∧ trailingResidue s = [0xAA]) ∨
    trailingResidue s = [] := by
  unfold trailingResidue
  split
  · next h => exact .inl ⟨h.1, h.2, rfl⟩
  · exact .inr rfl

/-- Unfolding the loop once. -/
theorem scanLoop_succ (fuel : Nat) (s : Scan) :
    (∃ r, scanPass s = .stop r ∧ scanLoop (fuel + 1) s = (s, r)) ∨
    (∃ s', scanPass s = .move s' ∧ scanLoop (fuel + 1) s = scanLoop fuel s') := by
  rw [scanLoop]
  cases h : scanPass s with
  | stop r => exact .inl ⟨r, rfl, rfl⟩
  | move s' => exact .inr ⟨s', rfl, rfl⟩

/-- The loop never changes the buffer it answers for. -/
theorem scanLoop_buf (fuel : Nat) (s : Scan) : (scanLoop fuel s).1.buf = s.buf := by
  induction fuel generalizing s with
  | zero => rfl
  | succ fuel ih =>
    rcases scanLoop_succ fuel s with ⟨r, _, h⟩ | ⟨s', hp, h⟩
    · rw [h]
    · rw [h, ih]
      rcases scanPass_cases s with ⟨_, hq⟩ | ⟨m, _, hq⟩
      · rw [hq] at hp; cases hp
      · rw [hq] at hp
        simpa using (judgeCandidate_move hp).1

/-- The phases of a scan by the tests of R28, and the one case that has none (log 18). -/
theorem scanPhase_cases (s : Scan) :
    (markerAt s.buf s.cur = false ∧ scanPhase s = some .searching) ∨
    (markerAt s.buf s.cur = true ∧ s.buf.length - s.cur < 3 ∧ scanPhase s = some .lengthPending) ∨
    (markerAt s.buf s.cur = true ∧ 3 ≤ s.buf.length - s.cur ∧
      s.buf.length - s.cur < 3 + (byteAt s.buf (s.cur + 2)).toNat ∧ scanPhase s = some .bodyPending) ∨
    (markerAt s.buf s.cur = true ∧ 3 + (byteAt s.buf (s.cur + 2)).toNat ≤ s.buf.length - s.cur ∧ scanPhase s = none) := by
  cases hm : markerAt s.buf s.cur with
  | false => exact .inl ⟨rfl, by simp [scanPhase, hm]⟩
  | true =>
    by_cases h3 : s.buf.length - s.cur < 3
    · exact .inr (.inl ⟨rfl, h3, by simp [scanPhase, hm, Config.hdrLen, h3]⟩)
    by_cases hT : s.buf.length - s.cur < 3 + (byteAt s.buf (s.cur + 2)).toNat
    · exact .inr (.inr (.inl ⟨rfl, by omega, hT, by simp [scanPhase, hm, Config.hdrLen, Config.offLength, h3, hT]⟩))
    · exact .inr (.inr (.inr ⟨rfl, by omega, by simp [scanPhase, hm, Config.hdrLen, Config.offLength, h3, hT]⟩))

/-- A `DECODE` always completes; in carried use it writes `RES`, in function use nothing but the results (R198). -/
theorem execDecode_next (newBytes : List Byte) (residue : ResidueSource) (s : State) :
    (residue = .carried ∧ execDecode newBytes residue s =
      .next (deliver (.decoded (decodeStream newBytes s.res)) (writeResidue (decodeStream newBytes s.res).newResidue s))) ∨
    (∃ given, residue = .supplied given ∧ execDecode newBytes residue s =
      .next (deliver (.decoded (decodeStream newBytes given)) s)) := by
  cases residue with
  | carried => exact .inl ⟨rfl, rfl⟩
  | supplied given => exact .inr ⟨given, rfl, rfl⟩

/-- The conditions of a call are read off its frames and its residue (R198). -/
theorem decodeStream_bits (newBytes residue : List Byte) :
    (decodeStream newBytes residue).noCompleteFrame = (decodeStream newBytes residue).frames.isEmpty ∧
    (decodeStream newBytes residue).incompleteFrame = !(decodeStream newBytes residue).newResidue.isEmpty := by
  exact ⟨rfl, rfl⟩

end Sys2Proof.Machine
end

