-- ==== Sys2Proof/Laws/Gains.lean ====
section
/-! SUPPORT. What reading, comparing, rounding and truncating binary32 numbers can answer (41_encoder.md R157, R159). -/

namespace Sys2Proof.Machine

/-- The ways a pattern is read (R159). -/
theorem f32Value_cases (x : Word) :
    ((x.extractLsb' 23 8).toNat = 255 ∧ (x.extractLsb' 0 23).toNat = 0 ∧ f32Value x = .infinite (x.getLsbD 31)) ∨
    ((x.extractLsb' 23 8).toNat = 255 ∧ (x.extractLsb' 0 23).toNat ≠ 0 ∧ f32Value x = .nan) ∨
    ((x.extractLsb' 23 8).toNat = 0 ∧ f32Value x = .finite (x.getLsbD 31) (x.extractLsb' 0 23).toNat (-149)) ∨
    ((x.extractLsb' 23 8).toNat ≠ 255 ∧ (x.extractLsb' 23 8).toNat ≠ 0 ∧ f32Value x =
      .finite (x.getLsbD 31) (2 ^ 23 + (x.extractLsb' 0 23).toNat) (((x.extractLsb' 23 8).toNat : Int) - 150)) := by
  simp only [f32Value]
  split
  · split
    · exact .inl ⟨by assumption, by assumption, rfl⟩
    · exact .inr (.inl ⟨by assumption, by assumption, rfl⟩)
  · split
    · exact .inr (.inr (.inl ⟨by assumption, rfl⟩))
    · exact .inr (.inr (.inr ⟨by assumption, by assumption, rfl⟩))

/-- The three constants of R157 as exact values. -/
theorem f32Value_iWindowLow : f32Value Config.iWindowLow = .finite false 13421773 (-27) := by decide
theorem f32Value_iWindowHigh : f32Value Config.iWindowHigh = .finite false 16384000 (-9) := by decide
theorem f32Value_iScale : f32Value Config.iScale = .finite false 16384000 (-14) := by decide

/-- A NaN is neither below nor above anything (R159). -/
theorem f32Lt_nan (x y : Word) (h : f32Value x = .nan ∨ f32Value y = .nan) : f32Lt x y = false := by
  unfold f32Lt
  rcases h with h | h
  · simp [h]
  · rw [h]; cases f32Value x <;> rfl

/-- An operand inside the window is a positive finite number, so the truncated product is formed of such numbers only and the
last arm of `scaledAndTruncated` is reached by no operand (log 17). -/
theorem f32Value_inWindow (i : Word) (hn : f32Value i ≠ .nan) (hl : f32Lt i Config.iWindowLow = false)
    (hh : f32Lt Config.iWindowHigh i = false) : ∃ m e, f32Value i = .finite false m e := by
  cases hv : f32Value i with
  | nan => exact absurd hv hn
  | infinite n =>
    cases n with
    | false => simp [f32Lt, hv, f32Value_iWindowHigh] at hh
    | true => simp [f32Lt, hv, f32Value_iWindowLow] at hl
  | finite n m e =>
    cases n with
    | false => exact ⟨m, e, rfl⟩
    | true =>
      simp only [f32Lt, hv, f32Value_iWindowLow, scaledLt, signedMant, decide_eq_false_iff_not] at hl
      have h1 : (0 : Int) ≤ (m : Int) * 2 ^ (e - min e (-27)).toNat := by positivity
      have h2 : (0 : Int) < 2 ^ ((-27 : Int) - min e (-27)).toNat := by positivity
      simp only [if_true, Bool.false_eq_true, if_false, neg_mul, Nat.cast_ofNat] at hl
      exact absurd (by linarith) hl

/-- Rounding keeps the nearest multiple of `2 ^ k`: up past the half, and at the half when the quotient is odd. -/
theorem roundToEven24_cases (m : Nat) :
    ((2 ^ (m.log2 + 1 - 24) < 2 * (m % 2 ^ (m.log2 + 1 - 24)) ∨
        (2 * (m % 2 ^ (m.log2 + 1 - 24)) = 2 ^ (m.log2 + 1 - 24) ∧ m / 2 ^ (m.log2 + 1 - 24) % 2 = 1)) ∧
      roundToEven24 m = (m / 2 ^ (m.log2 + 1 - 24) + 1, m.log2 + 1 - 24)) ∨
    (2 * (m % 2 ^ (m.log2 + 1 - 24)) ≤ 2 ^ (m.log2 + 1 - 24) ∧
      roundToEven24 m = (m / 2 ^ (m.log2 + 1 - 24), m.log2 + 1 - 24)) := by
  simp only [roundToEven24]
  split
  · exact .inl ⟨by assumption, rfl⟩
  · exact .inr ⟨by omega, rfl⟩

/-- The three ways the I word is formed (R157). -/
theorem iWord_cases (i : Word) :
    (f32Value i = .nan ∧ iWord i = 0) ∨
    (f32Value i ≠ .nan ∧ (f32Lt i Config.iWindowLow = true ∨ f32Lt Config.iWindowHigh i = true) ∧ iWord i = 100) ∨
    (f32Value i ≠ .nan ∧ f32Lt i Config.iWindowLow = false ∧ f32Lt Config.iWindowHigh i = false ∧
      iWord i = scaledAndTruncated i) := by
  by_cases hn : f32Value i = .nan
  · exact .inl ⟨hn, by simp [iWord, hn, Config.iNanWord]⟩
  · cases h1 : f32Lt i Config.iWindowLow with
    | true => exact .inr (.inl ⟨hn, .inl rfl, by simp [iWord, hn, h1, Config.iFallback]⟩)
    | false =>
      cases h2 : f32Lt Config.iWindowHigh i with
      | true => exact .inr (.inl ⟨hn, .inr rfl, by simp [iWord, hn, h2, Config.iFallback]⟩)
      | false => exact .inr (.inr ⟨hn, rfl, rfl, by simp [iWord, hn, h1, h2]⟩)

end Sys2Proof.Machine
end

