-- ==== Sys2Proof/Laws/PerInstr.lean ====
section
/-! SUPPORT. Statements made for every operation as syntax. Family ImageHeader: the image of a request begins with the marker,
as every pattern of opcode_table.json does, and its third byte is a code of its own operation. -/

namespace Sys2Proof.Laws.ImageHeader

/-- The third byte of an operation's image: the command's Length (R88), or the model's select code (log 3). -/
def selector : Instr → Byte
  | .checksum _ => Config.selChecksum
  | .baseControl _ _ => (grammar .baseControl).length
  | .sound _ _ _ => (grammar .sound).length
  | .soundSequence _ => (grammar .soundSequence).length
  | .requestExtra _ _ _ => (grammar .requestExtra).length
  | .generalPurposeOutput _ _ _ => (grammar .generalPurposeOutput).length
  | .setControllerGain _ _ _ _ => (grammar .setControllerGain).length
  | .getControllerGain => (grammar .getControllerGain).length
  | .decode _ .carried => Config.selDecodeCarried
  | .decode _ (.supplied _) => Config.selDecodeSupplied

def Statement (i : Instr) : Prop :=
  (encodeRequest i).take 3 = [Config.marker0, Config.marker1, selector i]

theorem checksum (buf : List Byte) : Statement (.checksum buf) := rfl
theorem baseControl (speed radius : Half) : Statement (.baseControl speed radius) := rfl
theorem sound (freq amp duration : Byte) : Statement (.sound freq amp duration) := rfl
theorem soundSequence (seq : Byte) : Statement (.soundSequence seq) := rfl
theorem requestExtra (hwVer fwVer udid : Bool) : Statement (.requestExtra hwVer fwVer udid) := rfl
theorem generalPurposeOutput (dout pwr led : Bits4) : Statement (.generalPurposeOutput dout pwr led) := rfl
theorem setControllerGain (userConfigured : Bool) (p i d : Word) : Statement (.setControllerGain userConfigured p i d) := rfl
theorem getControllerGain : Statement .getControllerGain := rfl
theorem decode (newBytes : List Byte) (residue : ResidueSource) : Statement (.decode newBytes residue) := by
  cases residue <;> rfl

end Sys2Proof.Laws.ImageHeader
end

