-- ==== Sys2Proof/Laws/Requests.lean ====
section
/-! SUPPORT. What a step can do, and what the decoder of request images reads. -/

namespace Sys2Proof

open Sys2Proof.Machine

/-- A supplied residue is read back from its image, with what follows it. -/
theorem splitResidue_residueImage (r t : List Byte) : splitResidue (residueImage r ++ t) = some (r, t) := by
  induction r with
  | nil => cases t <;> simp [residueImage, splitResidue]
  | cons b r ih => simp [residueImage, splitResidue, ih]

/-- Every command's header names the command (R99). -/
theorem commandOfHeader_frameHeader (c : Command) : commandOfHeader (frameHeader c) = some c := by
  cases c <;> rfl

/-- A header that names a command is that command's header. -/
theorem frameHeader_of_commandOfHeader {h : List Byte} {c : Command} (e : commandOfHeader h = some c) :
    frameHeader c = h := by
  simpa using List.find?_some e

/-- Two bytes joined and split again. -/
theorem halfOf_le16 (v : Half) : halfOf (v.extractLsb' 0 8) (v.extractLsb' 8 8) = v := by
  apply BitVec.eq_of_getLsbD_eq
  intro k hk
  rw [halfOf, BitVec.getLsbD_append, BitVec.getLsbD_extractLsb', BitVec.getLsbD_extractLsb']
  split
  · next h => simp [h]
  · next h => simp [show k - 8 < 8 by omega, show 8 + (k - 8) = k by omega]

/-- Four bytes joined and split again. -/
theorem wordOf_le32 (v : Word) :
    wordOf (v.extractLsb' 0 8) (v.extractLsb' 8 8) (v.extractLsb' 16 8) (v.extractLsb' 24 8) = v := by
  apply BitVec.eq_of_getLsbD_eq
  intro k hk
  simp only [wordOf, BitVec.getLsbD_append, BitVec.getLsbD_extractLsb']
  split
  · next h => simp [h]
  split
  · next h => simp [h, show 8 + (k - 8) = k by omega]
  split
  · next h => simp [h, show 16 + (k - 8 - 8) = k by omega]
  · simp [show k - 8 - 8 - 8 < 8 by omega, show 24 + (k - 8 - 8 - 8) = k by omega]

/-- The flags read from the byte are the operands that were packed into it (R92). -/
theorem requestExtraFlags_bits (hwVer fwVer udid : Bool) :
    requestExtraFlags hwVer fwVer udid &&& 0x7C#8 = 0 ∧ (requestExtraFlags hwVer fwVer udid).getLsbD 0 = hwVer ∧
      (requestExtraFlags hwVer fwVer udid).getLsbD 1 = fwVer ∧ (requestExtraFlags hwVer fwVer udid).getLsbD 7 = udid := by
  cases hwVer <;> cases fwVer <;> cases udid <;> decide

end Sys2Proof

namespace Sys2Proof.Machine

/-- What the first request can come to (R24, R25). -/
theorem serve_cases (s : State) :
    (s.requests = [] ∧ serve s = .idle) ∨
    (∃ i rest, s.requests = .operation i :: rest ∧ serve s = .operation i { s with requests := rest }) ∨
    (∃ b i rest, s.requests = .image b :: rest ∧ decodeRequest b = .ok i ∧
      serve s = .operation i { s with requests := rest }) ∨
    (∃ b e rest, s.requests = .image b :: rest ∧ decodeRequest b = .error e ∧
      serve s = .service (.refused .unknownRequest)) ∨
    (∃ v rest, s.requests = .loadResidue v :: rest ∧ serve s = .service (loadResidue v { s with requests := rest })) ∨
    (∃ rest, s.requests = .readResidue :: rest ∧
      serve s = .service (.next (readOutResidue { s with requests := rest }))) ∨
    (∃ rest, s.requests = .reset :: rest ∧ serve s = .service (.next (resetBlock { s with requests := rest }))) := by
  rcases s with ⟨res, result, _ | ⟨q, rest⟩⟩
  · exact .inl ⟨rfl, rfl⟩
  · cases q with
    | operation i => exact .inr (.inl ⟨i, rest, rfl, rfl⟩)
    | image b =>
      cases h : decodeRequest b with
      | ok i => exact .inr (.inr (.inl ⟨b, i, rest, rfl, h, by simp [serve, h]⟩))
      | error e => exact .inr (.inr (.inr (.inl ⟨b, e, rest, rfl, h, by simp [serve, h]⟩)))
    | loadResidue v => exact .inr (.inr (.inr (.inr (.inl ⟨v, rest, rfl, rfl⟩))))
    | readResidue => exact .inr (.inr (.inr (.inr (.inr (.inl ⟨rest, rfl, rfl⟩)))))
    | reset => exact .inr (.inr (.inr (.inr (.inr (.inr ⟨rest, rfl, rfl⟩)))))

/-- What an operation can do to the machine: it puts its results on the ports, and a `DECODE` in carried use writes `RES`
(R22, R62). -/
theorem exec_cases (i : Instr) (s : State) :
    (∃ newBytes, i = .decode newBytes .carried ∧ exec i s =
      .next (deliver (.decoded (decodeStream newBytes s.res)) (writeResidue (decodeStream newBytes s.res).newResidue s))) ∨
    ((∀ newBytes, i ≠ .decode newBytes .carried) ∧ ∃ r, exec i s = .next (deliver r s)) := by
  cases i with
  | decode newBytes residue =>
    rcases execDecode_next newBytes residue s with ⟨rfl, h⟩ | ⟨given, rfl, h⟩
    · exact .inl ⟨newBytes, rfl, h⟩
    · exact .inr ⟨by simp, _, h⟩
  | sound freq amp duration =>
    refine .inr ⟨by simp, ?_⟩
    rcases deliverEncoder_next (soundFrame freq amp duration) s with ⟨f, _, h⟩ | ⟨c, _, h⟩
    · exact ⟨_, h⟩
    · exact ⟨_, h⟩
  | checksum buf => exact .inr ⟨by simp, _, rfl⟩
  | baseControl speed radius => exact .inr ⟨by simp, _, rfl⟩
  | soundSequence seq => exact .inr ⟨by simp, _, rfl⟩
  | requestExtra hwVer fwVer udid => exact .inr ⟨by simp, _, rfl⟩
  | generalPurposeOutput dout pwr led => exact .inr ⟨by simp, _, rfl⟩
  | setControllerGain userConfigured p i d => exact .inr ⟨by simp, _, rfl⟩
  | getControllerGain => exact .inr ⟨by simp, _, rfl⟩

end Sys2Proof.Machine
end

