-- ==== Sys2Proof/Tests/Slice0.lean ====
section
/-! SUPPORT. The model's own tests. Expected results are the vectors of spec/95_test_vectors.md (named in each comment) and the
tables of spec/30_encoding.md, written out by hand; none is the model's own answer. The last section shows, for every
statement with hypotheses, a state and operands that meet them. -/

namespace Sys2Proof.Tests

open Sys2Proof Sys2Proof.Machine

/-- What an outcome puts on the result ports. -/
def resultOf : Host.Outcome State Fault Refusal → Option Result
  | .next s => some s.result
  | .fault _ => none
  | .refused _ => none

/-- What an outcome leaves in `RES`. -/
def resOf : Host.Outcome State Fault Refusal → Option (List Byte)
  | .next s => some s.res
  | .fault _ => none
  | .refused _ => none

/-- A state with the given residue and requests. -/
def st (res : List Byte) (requests : List Request) : State :=
  { res := res, result := .idle, requests := requests }

/-- The results of running one operation on a given residue. -/
def run1 (i : Instr) (res : List Byte) : Option Result :=
  resultOf (exec i (st res []))

/-- A scan at the start of the given bytes. -/
def sc (B : List Byte) : Scan :=
  scanStart B []

/-! ### Well-formedness: the one check, met and refused at its boundary (R24) -/

theorem test_load_of_257_wellFormed : (Request.loadResidue (List.replicate 257 0xAA)).wellFormed = true := by
  rw [Request.wellFormed, List.length_replicate]; rfl
theorem test_load_of_258_refused : (Request.loadResidue (List.replicate 258 0xAA)).wellFormed = false := by
  rw [Request.wellFormed, List.length_replicate]; rfl

/-! ### Decoding: headers of opcode_table.json, operand bytes by R89 to R95 and R21 -/

theorem test_decode_baseControl :  -- E3's operands
    decodeRequest [0xAA, 0x55, 0x07, 0x01, 0x04, 0x34, 0x12, 0xFE, 0xFF] = .ok (.baseControl 0x1234 0xFFFE) := by rfl
theorem test_decode_sound : decodeRequest [0xAA, 0x55, 0x06, 0x03, 0x03, 2, 3, 10] = .ok (.sound 2 3 10) := by rfl
theorem test_decode_soundSequence : decodeRequest [0xAA, 0x55, 0x04, 0x04, 0x01, 6] = .ok (.soundSequence 6) := by rfl
theorem test_decode_requestExtra :  -- bit 0 hwVer, bit 7 udid (R92)
    decodeRequest [0xAA, 0x55, 0x05, 0x09, 0x02, 0x81] = .ok (.requestExtra true false true) := by rfl
theorem test_decode_generalPurposeOutput :  -- E30's bytes
    decodeRequest [0xAA, 0x55, 0x05, 0x0C, 0x02, 0x84, 0x08] = .ok (.generalPurposeOutput
      ⟨false, false, true, false⟩ ⟨false, false, false, true⟩ ⟨false, false, false, true⟩) := by rfl
theorem test_decode_setControllerGain :  -- the operands of E35
    decodeRequest [0xAA, 0x55, 0x10, 0x0D, 0x0D, 1, 5, 0, 0, 0, 0x60, 0xE5, 0xD0, 0x3D, 7, 0, 0, 0] =
      .ok (.setControllerGain true 5 0x3DD0E560 7) := by rfl
theorem test_decode_getControllerGain : decodeRequest [0xAA, 0x55, 0x04, 0x0E, 0x01] = .ok .getControllerGain := by rfl
theorem test_decode_checksum : decodeRequest [0xAA, 0x55, 0x02, 0x5A] = .ok (.checksum [0x5A]) := by rfl
theorem test_decode_decode_carried : decodeRequest [0xAA, 0x55, 0x00, 0x11, 0xAA] = .ok (.decode [0x11, 0xAA] .carried) := by
  rfl
theorem test_decode_decode_supplied :
    decodeRequest [0xAA, 0x55, 0x01, 0x01, 0xAA, 0x00, 0x55] = .ok (.decode [0x55] (.supplied [0xAA])) := by rfl
theorem test_decode_rejects_unknown_header :  -- Id 2 is no command (R101)
    decodeRequest [0xAA, 0x55, 0x07, 0x02, 0x04, 0, 0, 0, 0] = .error .unknownHeader := by rfl
theorem test_decode_rejects_reserved_flag :
    decodeRequest [0xAA, 0x55, 0x05, 0x09, 0x02, 0x04] = .error .reservedBits := by rfl
theorem test_table_pattern_decode : decodeTableWord 16 0xAA55 = some (.decode [] .carried) := by decide
theorem test_table_pattern_setControllerGain :
    decodeTableWord 40 0xAA55100D0D = some (.setControllerGain false 0 0 0) := by decide

/-! ### The nine operations -/

theorem test_checksum_K6 : run1 (.checksum [0xAA, 0x55, 7, 1, 4, 0x34, 0x12, 0xFE, 0xFF]) [] = some (.checksum 0x27) := by
  decide
theorem test_checksum_K2 : run1 (.checksum [0xAA, 0x55, 7, 1]) [] = some (.checksum 0) := by decide
theorem test_baseControl_E3 : run1 (.baseControl 0x1234 0xFFFE) [] =
    some (.encoded [0xAA, 0x55, 7, 1, 4, 0x34, 0x12, 0xFE, 0xFF, 0x27]) := by decide
theorem test_sound_E7 : run1 (.sound 1 1 5) [] = some (.encoded [0xAA, 0x55, 6, 3, 3, 1, 0, 5, 4]) := by decide
theorem test_sound_E13 :  -- product 256: value 0, no divide by zero
    run1 (.sound 16 16 1) [] = some (.encoded [0xAA, 0x55, 6, 3, 3, 0, 0, 1, 1]) := by decide
theorem test_soundSequence_E20 : run1 (.soundSequence 0xAA) [] = some (.encoded [0xAA, 0x55, 4, 4, 1, 0xAA, 0xAA]) := by
  decide
theorem test_requestExtra_E26 : run1 (.requestExtra true true true) [] =
    some (.encoded [0xAA, 0x55, 5, 9, 2, 0x83, 0x83]) := by decide
theorem test_requestExtra_E24 : run1 (.requestExtra false true false) [] =
    some (.encoded [0xAA, 0x55, 5, 9, 2, 0x02, 0x02]) := by decide
theorem test_generalPurposeOutput_E31 : run1 (.generalPurposeOutput ⟨false, true, false, true⟩
    ⟨false, true, true, false⟩ ⟨false, true, true, false⟩) [] =
    some (.encoded [0xAA, 0x55, 5, 0x0C, 2, 0x6A, 0x06, 0x6C]) := by decide
theorem test_setControllerGain_E32 : run1 (.setControllerGain true 0 0x3D4CCCCD 0) [] = some (.encoded
    [0xAA, 0x55, 0x10, 0x0D, 0x0D, 1, 0xE8, 3, 0, 0, 0x64, 0, 0, 0, 0xD0, 7, 0, 0, 0x59]) := by decide
theorem test_setControllerGain_E36 : run1 (.setControllerGain true 4294968 0x42F6E9D5 0xFFFFFFFF) [] = some (.encoded
    [0xAA, 0x55, 0x10, 0x0D, 0x0D, 1, 0xC0, 2, 0, 0, 0x40, 0xE2, 1, 0, 0x18, 0xFC, 0xFF, 0xFF, 0x84]) := by decide
theorem test_getControllerGain_E38 : run1 .getControllerGain [] =
    some (.encoded [0xAA, 0x55, 4, 0x0E, 1, 0xFF, 0xFF]) := by decide
theorem test_decode_V20 :  -- two mismatches, then a frame
    run1 (.decode [0xAA, 0x55, 6, 1, 3, 0xAA, 0x55, 3, 0xFF, 0xAA, 0x55, 3, 9, 0, 0] .carried) [] =
      some (.decoded ⟨[⟨9, []⟩], [], 2, 0, false, false⟩) := by decide
theorem test_decode_V8b :  -- the marker split across calls
    run1 (.decode [0x55, 4, 0x0E, 1, 0xFF, 0xFF] .carried) [0xAA] =
      some (.decoded ⟨[⟨0x0E, [0xFF]⟩], [], 0, 0, false, false⟩) := by decide

/-! ### I words at the edges (the table of R159) -/

theorem test_iWord_rounds_up : iWord 0x3DD0E560 = 102 := by decide
theorem test_iWord_below_window : iWord 0x3DCCCCCC = 100 := by decide
theorem test_iWord_window_low : iWord 0x3DCCCCCD = 100 := by decide
theorem test_iWord_window_high : iWord 0x46FA0000 = 32000000 := by decide
theorem test_iWord_above_window : iWord 0x46FA0001 = 100 := by decide
theorem test_iWord_infinity : iWord 0x7F800000 = 100 := by decide
theorem test_iWord_minus_one : iWord 0xBF800000 = 100 := by decide
theorem test_iWord_nan : iWord 0x7F800001 = 0 := by decide

/-! ### Steps -/

theorem test_step_carries_residue :  -- V8: noise dropped, the last `AA` kept
    resOf (step (st [] [.operation (.decode [0x01, 0x02, 0xAA] .carried)])) = some [0xAA] := by decide
theorem test_step_function_use_leaves_RES :
    resOf (step (st [0x77] [.operation (.decode [0xAA] (.supplied []))])) = some [0x77] := by decide
theorem test_step_runs_table_pattern :
    resultOf (step (State.reset.withFetchWord 40 0xAA55040E01)) = some (.encoded [0xAA, 0x55, 4, 0x0E, 1, 0xFF, 0xFF]) := by
  decide
theorem test_program5_reset_mid_frame :  -- steps 1 to 3 of program 5
    resultOf (core.run 3 (st [] [.operation (.decode [0xAA, 0x55, 7, 1, 4, 1] .carried), .reset,
      .operation (.decode [0, 1, 0, 0, 0xAA, 0x55, 4, 0x0E, 1, 0xFF, 0xFF] .carried)])) =
      some (.decoded ⟨[⟨0x0E, [0xFF]⟩], [], 0, 0, false, false⟩) := by decide

/-! ### Witnesses: every statement's hypotheses can be met together -/

theorem test_witness_StepKeepsResidueBound :
    (st (List.replicate 257 0xAA) [.readResidue]).residueFits ∧
      ∃ s', step (st (List.replicate 257 0xAA) [.readResidue]) = .next s' :=
  ⟨(List.length_replicate ..).le, _, rfl⟩
theorem test_witness_StepKeepsResidueShape :
    residueShape [0xAA, 0x55, 3] = true ∧
      (∀ v, Request.loadResidue v ∈ (st [0xAA, 0x55, 3] [.loadResidue [0xAA]]).requests → residueShape v = true) ∧
      ∃ s', step (st [0xAA, 0x55, 3] [.loadResidue [0xAA]]) = .next s' := by
  refine ⟨by decide, fun v hv => ?_, _, rfl⟩
  simp only [st, List.mem_singleton, Request.loadResidue.injEq] at hv
  subst hv
  decide
theorem test_witness_StepRunsRequestedOperation :
    (st [] [.operation .getControllerGain]).requests = .operation .getControllerGain :: [] ∧
      decodeRequest [0xAA, 0x55, 0x04, 0x0E, 0x01] = .ok .getControllerGain ∧
      decodeTableWord 40 0xAA55040E01 = some .getControllerGain := ⟨rfl, rfl, by decide⟩
theorem test_witness_StepRefusesUnknownImage :
    (st [] [.image []]).requests = .image [] :: [] ∧ decodeRequest [] = .error .tooShort := ⟨rfl, rfl⟩
theorem test_witness_StepWithoutRequest : (st [0xAA] []).requests = [] := rfl
theorem test_witness_LoadWritesResidue :
    (List.replicate 257 (0xAA : Byte)).length ≤ 257 ∧ 257 < (List.replicate 258 (0xAA : Byte)).length ∧
      (st [] [.loadResidue (List.replicate 257 0xAA)]).requests = .loadResidue (List.replicate 257 0xAA) :: [] ∧
      (st [] [.loadResidue (List.replicate 258 0xAA)]).requests = .loadResidue (List.replicate 258 0xAA) :: [] :=
  ⟨(List.length_replicate ..).le, (List.length_replicate ..).ge, rfl, rfl⟩
theorem test_witness_ReadAndReset :
    (st [0xAA] [.readResidue]).requests = .readResidue :: [] ∧ (st [0xAA] [.reset]).requests = .reset :: [] := ⟨rfl, rfl⟩
theorem test_witness_OperationsOtherThanCarriedDecode :
    (∀ b, Instr.soundSequence 6 ≠ .decode b .carried) ∧ (∀ b, Instr.decode [] (.supplied []) ≠ .decode b .carried) ∧
      ∃ t, exec (.soundSequence 6) (st [0xAA] []) = .next t := ⟨by simp, by simp, _, rfl⟩
theorem test_witness_ChecksumBits : (0 : Nat) < 8 ∧ (7 : Nat) < 8 := by decide
theorem test_witness_ChecksumIgnoresHeaderAndOrder :
    [0, 0, 0, 0, 0].length = 5 ∧ [0xAA, 0x55, 7, 1, 4].length = 5 ∧ ([1, 2] : List Byte).Perm [2, 1] :=
  ⟨rfl, rfl, by decide⟩
theorem test_witness_ChecksumDetectsOneChangedByte : 5 ≤ ([0, 0, 0, 0, 0] : List Byte).length ∧ (1 : Byte) ≠ 2 := by decide
theorem test_witness_SoundSendsNineBytes : (1 : Byte) ≠ 0 ∧ (255 : Byte) ≠ 0 := by decide
theorem test_witness_OnlySoundWithZero :
    ((0 : Byte) = 0 ∨ (1 : Byte) = 0 ∨ (1 : Byte) = 0) ∧ run1 (.sound 1 1 0) [] = some .invalidInput := by decide
theorem test_witness_GeneralPurposeOutput :
    (0x11 : Byte).toNat = true.toNat + 2 * false.toNat + 4 * false.toNat + 8 * false.toNat +
      16 * true.toNat + 32 * false.toNat + 64 * false.toNat + 128 * false.toNat ∧
    (0x01 : Byte).toNat = true.toNat + 2 * false.toNat + 4 * false.toNat + 8 * false.toNat := by decide
theorem test_witness_GainWordsExactRange :
    1 ≤ (1 : Word).toNat ∧ (4294967 : Word).toNat ≤ 4294967 ∧ (pWord 4294967).toNat = 4294967000 := by decide
theorem test_witness_GainIWordNaN : 0x7F800000 < (0x7F800001 : Word).toNat % 2 ^ 31 := by decide
theorem test_witness_GainIWordOutside :
    ((0x3DCCCCCC : Word).toNat % 2 ^ 31 ≤ 0x7F800000 ∧ (0x3DCCCCCC : Word).toNat < 0x3DCCCCCD) ∧
    ((0x46FA0001 : Word).toNat % 2 ^ 31 ≤ 0x7F800000 ∧ 0x46FA0000 < (0x46FA0001 : Word).toNat) := by decide
theorem test_witness_GainIWordInside :
    (0x3DCCCCCD ≤ (0x3DCCCCCD : Word).toNat ∧ (0x3DCCCCCD : Word).toNat ≤ 0x46FA0000) ∧
    (0x3DCCCCCD ≤ (0x46FA0000 : Word).toNat ∧ (0x46FA0000 : Word).toNat ≤ 0x46FA0000) := by decide
theorem test_witness_GainIWordProduct : ∃ x : ℚ, x =
    ((2 : ℚ) ^ 23 + (((0x3DCCCCCD : Word).toNat % 2 ^ 23 : Nat) : ℚ)) *
      (2 : ℚ) ^ ((((0x3DCCCCCD : Word).toNat / 2 ^ 23 : Nat) : ℤ) - 150) := ⟨_, rfl⟩
theorem test_witness_FrameStatements :
    commandOf (.requestExtra true false false) = some .requestExtra ∧ commandOf (.sound 1 1 5) = some .sound ∧
      (∃ t, exec (.requestExtra true false false) (st [] []) = .next t ∧
        t.result = .encoded [0xAA, 0x55, 5, 9, 2, 1, 1]) ∧
      ∃ t, exec (.sound 1 1 5) (st [] []) = .next t ∧ t.result = .encoded [0xAA, 0x55, 6, 3, 3, 1, 0, 5, 4] :=
  ⟨rfl, rfl, ⟨_, rfl, by decide⟩, ⟨_, rfl, by decide⟩⟩
theorem test_witness_DecodeSeesOnlyTheConcatenation : ([0xAA] : List Byte) ++ [0x55] = [0xAA, 0x55] ++ [] := rfl

theorem test_witness_DecodeDropsNoise :
    (sc [0x00, 0xAA, 0x55, 3]).buf.drop (sc [0x00, 0xAA, 0x55, 3]).cur = [0x00] ++ 0xAA :: 0x55 :: [3] ∧
      ∀ pre post : List Byte, [0x00] ++ 0xAA :: 0x55 :: [3] = pre ++ 0xAA :: 0x55 :: post → 1 ≤ pre.length := by
  refine ⟨rfl, fun pre post h => ?_⟩
  cases pre with
  | nil => simp at h
  | cons => simp
theorem test_witness_DecodeEndsWhereNoMarkerIsLeft :
    ∀ pre post : List Byte, (sc [0x00, 0xAA]).buf.drop (sc [0x00, 0xAA]).cur ≠ pre ++ 0xAA :: 0x55 :: post := by
  intro pre post h
  change [0x00, 0xAA] = pre ++ 0xAA :: 0x55 :: post at h
  cases pre with
  | nil => simp at h
  | cons a t =>
    have hl := congrArg List.length h
    simp at hl
    omega
theorem test_witness_DecodeKeepsBareMarker : (sc [0xAA, 0x55]).buf.drop (sc [0xAA, 0x55]).cur = [0xAA, 0x55] := rfl
theorem test_witness_DecodeSkipsBadLength :
    (sc [0xAA, 0x55, 2]).buf.drop (sc [0xAA, 0x55, 2]).cur = 0xAA :: 0x55 :: 2 :: [] ∧ (2 : Byte).toNat < 3 :=
  ⟨rfl, by decide⟩
theorem test_witness_DecodeKeepsIncompleteBody :
    (sc [0xAA, 0x55, 3, 7, 0]).buf.drop (sc [0xAA, 0x55, 3, 7, 0]).cur = 0xAA :: 0x55 :: 3 :: [7, 0] ∧
      3 ≤ (3 : Byte).toNat ∧ ([7, 0] : List Byte).length < (3 : Byte).toNat := ⟨rfl, by decide, by decide⟩
theorem test_witness_DecodeAcceptsMatchingFrame :  -- V14: the Size byte is wrong and ignored
    ([0xFF] : List Byte).length ≤ 252 ∧ (List.replicate 252 (0 : Byte)).length ≤ 252 ∧
      (sc [0xAA, 0x55, 4, 0x0E, 5, 0xFF, 0xFF]).buf.drop 0 = inboundFrame 0x0E 5 [0xFF] ++ [] :=
  ⟨by decide, (List.length_replicate ..).le, rfl⟩
theorem test_witness_DecodeSkipsMismatch :  -- V11b
    (0x01 : Byte) ≠ xorFold [] ∧ (sc [0xAA, 0x55, 3, 7, 0, 1]).buf.drop 0 =
      [0xAA, 0x55, BitVec.ofNat 8 (([] : List Byte).length + 3), 7, 0] ++ [] ++ 0x01 :: [] := ⟨by decide, rfl⟩
theorem test_witness_CursorOnlyAdvances : ∃ s', scanPass (sc [0xAA, 0x55, 3, 7, 0, 1]) = .move s' := ⟨_, rfl⟩
theorem test_witness_CarriedRun :
    (st [] [.operation (.decode [0xAA] .carried)]).requests =
      [[0xAA]].map (fun c => Request.operation (.decode c .carried)) := rfl
theorem test_witness_PhaseIsReadOffTheResidue :
    residueShape [] = true ∧ residueShape [0xAA] = true ∧ residueShape [0xAA, 0x55] = true ∧
      residueShape [0xAA, 0x55, 3, 0, 0] = true ∧ residueShape [0xAA, 0x55, 3, 0, 0, 0] = false := by decide
theorem test_witness_PhaseFollowsCursorAndBuffer :  -- R28's tests at their edges: L = 1 with 3 of 4 bytes, then with all 4
    (∀ rest, (sc [0x00, 0xAA, 0x55]).buf.drop 0 ≠ 0xAA :: 0x55 :: rest) ∧ (sc [0xAA, 0x55]).buf.drop 0 = [0xAA, 0x55] ∧
      ((sc [0xAA, 0x55, 1]).buf.drop 0 = 0xAA :: 0x55 :: 1 :: [] ∧ ([] : List Byte).length < (1 : Byte).toNat) ∧
      ((sc [0xAA, 0x55, 1, 0]).buf.drop 0 = 0xAA :: 0x55 :: 1 :: [0] ∧ ¬([0] : List Byte).length < (1 : Byte).toNat) :=
  ⟨by simp [sc, scanStart], rfl, ⟨rfl, by decide⟩, ⟨rfl, by decide⟩⟩
theorem test_scanPhase_marker_further_on : scanPhase (sc [0x00, 0xAA, 0x55]) = some .searching := by decide  -- R185
theorem test_scanPhase_short_length : scanPhase (sc [0xAA, 0x55, 1]) = some .bodyPending := by decide  -- R28
theorem test_witness_RequestExtraTakesTheNextByte : (0 : Byte) = 0 ∧ (0xAA : Byte) ≠ 0 := by decide
theorem test_witness_CorruptedPayloadByte :  -- V7's frame, byte 7 changed from 01 to 03
    (([1, 0] : List Byte) ++ 1 :: [0]).length ≤ 252 ∧ (1 : Byte) ≠ 3 ∧
      ([0x55, 7, 1, 4, 1, 0, 3, 0, 0] : List Byte) =
        [0x55, BitVec.ofNat 8 ((([1, 0] : List Byte) ++ 1 :: [0]).length + 3), 1, 4] ++ ([1, 0] ++ 3 :: [0]) ++
          [xorFold ([1, 0] ++ 1 :: [0])] := ⟨by decide, by decide, rfl⟩
theorem test_witness_CorruptedPayloadByte_noInnerMarker :
    ∀ pre post : List Byte, [0x55, 7, 1, 4, 1, 0, 3, 0, 0] ++ 0xAA :: 0x55 :: [] = pre ++ 0xAA :: 0x55 :: post →
      ([0x55, 7, 1, 4, 1, 0, 3, 0, 0] : List Byte).length ≤ pre.length := by
  intro pre post h
  by_contra hlt
  have hk := congrArg (fun l => l[pre.length]?) h
  simp only [List.length_cons, List.length_nil, Nat.not_le] at hlt
  simp only [List.getElem?_append_right le_rfl, Nat.sub_self, List.getElem?_cons_zero] at hk
  interval_cases pre.length <;> simp at hk
theorem test_witness_EncodedRequestsDecodeBack : (Instr.sound 0 0 0).wellFormed = true := rfl
theorem test_witness_DecodedImagesAreCanonical : decodeRequest [0xAA, 0x55, 0x04, 0x04, 0x01, 6] = .ok (.soundSequence 6) :=
  rfl

end Sys2Proof.Tests
end

section
/-! The checksum unit (40_checksum.md): what `CHECKSUM` delivers and what it leaves unchanged. -/

namespace Sys2Proof.Machine

/-- `CHECKSUM` always completes, and writes the result ports only (R120). -/
theorem exec_checksum (buf : List Byte) (s : State) :
    exec (.checksum buf) s = .next (deliver (.checksum (checksum buf)) s) := rfl

/-- The first clause of R120: no payload region, nothing to fold. -/
theorem checksum_of_length_lt_five {buf : List Byte} (h : buf.length < 5) : checksum buf = 0 := by
  rw [checksum_eq, List.drop_eq_nil_of_le h.le, xorFold_nil]

/-- Settles O15: below 5 bytes by the first clause of R120, from 5 bytes on by the fold from offset 5. -/
theorem checksumFoldsPayload : Obligations.ChecksumFoldsPayload := by
  intro buf s
  rw [exec_checksum]
  split
  next hshort => rw [checksum_of_length_lt_five hshort, deliver]
  next => rw [checksum_eq, deliver, xorFold]

end Sys2Proof.Machine
end

section
/-! The frame encoder (41_encoder.md): the frames of `BaseControl`, `SoundSequence` and `GetControllerGain` byte for byte, and
where `InvalidInput` comes from. -/

namespace Sys2Proof.Machine

/-- An encoder operation that has a frame delivers it, and writes the result ports only (R141). -/
@[simp] theorem deliverEncoder_ok (frame : List Byte) (s : State) :
    deliverEncoder (.ok frame) s = .next (deliver (.encoded frame) s) := rfl

/-- An encoder operation with a condition delivers no bytes, and writes the result ports only (R231). -/
@[simp] theorem deliverEncoder_error (c : Condition) (s : State) :
    deliverEncoder (.error c) s = .next (deliver .invalidInput s) := rfl

theorem exec_baseControl (speed radius : Half) (s : State) :
    exec (.baseControl speed radius) s = .next (deliver (.encoded (baseControlFrame speed radius)) s) := rfl

theorem exec_sound (freq amp duration : Byte) (s : State) :
    exec (.sound freq amp duration) s = deliverEncoder (soundFrame freq amp duration) s := rfl

theorem exec_soundSequence (seq : Byte) (s : State) :
    exec (.soundSequence seq) s = .next (deliver (.encoded (soundSequenceFrame seq)) s) := rfl

theorem exec_getControllerGain (s : State) :
    exec .getControllerGain s = .next (deliver (.encoded getControllerGainFrame) s) := rfl

/-- The two bytes of a half word, the low one first, as truncation and shift (R52). -/
theorem le16_eq_setWidth (v : Half) : le16 v = [v.setWidth 8, (v >>> 8).setWidth 8] := by
  rw [le16, BitVec.setWidth_eq_extractLsb' (by decide), BitVec.setWidth_ushiftRight_eq_extractLsb]

/-- R142: the header of the table's row, the two operands low byte first, and the fold of those four bytes. -/
theorem baseControlFrame_eq (speed radius : Half) :
    baseControlFrame speed radius =
      [0xAA, 0x55, 7, 1, 4, speed.setWidth 8, (speed >>> 8).setWidth 8, radius.setWidth 8, (radius >>> 8).setWidth 8,
        speed.setWidth 8 ^^^ (speed >>> 8).setWidth 8 ^^^ radius.setWidth 8 ^^^ (radius >>> 8).setWidth 8] := by
  simp [baseControlFrame, push2, le16_eq_setWidth, build_eq, grammar, BitVec.xor_assoc]

/-- R147: the fold of a one-byte payload is that byte. -/
theorem soundSequenceFrame_eq (seq : Byte) : soundSequenceFrame seq = [0xAA, 0x55, 4, 4, 1, seq, seq] := by
  simp [soundSequenceFrame, build_eq, grammar]

/-- R160: the one payload byte is the constant `0xFF`, so it is its own checksum. -/
theorem getControllerGainFrame_eq : getControllerGainFrame = [0xAA, 0x55, 4, 14, 1, 0xFF, 0xFF] := by
  simp [getControllerGainFrame, build_eq, grammar, Config.getGainPayload]

/-- `Sound` tests its three operands first: any zero has no frame, all others have one (R144, R145). -/
theorem soundFrame_cases (freq amp duration : Byte) :
    ((freq = 0 ∨ amp = 0 ∨ duration = 0) ∧ soundFrame freq amp duration = .error .invalidInput) ∨
    (¬(freq = 0 ∨ amp = 0 ∨ duration = 0) ∧
      soundFrame freq amp duration = .ok (build .sound (le16 (soundValue freq amp) ++ [duration]))) := by
  by_cases hzero : freq = 0 ∨ amp = 0 ∨ duration = 0
  · exact .inl ⟨hzero, if_pos hzero⟩
  · exact .inr ⟨hzero, if_neg hzero⟩

/-- Only `Sound` can raise `InvalidInput`: every other operation delivers a result of its own (R230, R231). -/
theorem eq_sound_of_invalidInput {i : Instr} {s t : State} (h : exec i s = .next t) (ht : t.result = .invalidInput) :
    ∃ freq amp duration, i = .sound freq amp duration := by
  cases i with
  | sound freq amp duration => exact ⟨freq, amp, duration, rfl⟩
  | decode newBytes residue =>
    rcases execDecode_next newBytes residue s with ⟨_, hexec⟩ | ⟨_, _, hexec⟩
    all_goals
      cases hexec.symm.trans h
      cases ht
  | checksum | baseControl | soundSequence | requestExtra | generalPurposeOutput | setControllerGain | getControllerGain =>
    cases h
    cases ht

/-- A `Sound` that answers `InvalidInput` was given a zero operand (R145). -/
theorem zero_of_sound_invalidInput {freq amp duration : Byte} {s t : State}
    (h : exec (.sound freq amp duration) s = .next t) (ht : t.result = .invalidInput) :
    freq = 0 ∨ amp = 0 ∨ duration = 0 := by
  rcases soundFrame_cases freq amp duration with ⟨hzero, _⟩ | ⟨_, hframe⟩
  · exact hzero
  · rw [exec_sound, hframe, deliverEncoder_ok] at h
    cases h
    cases ht

/-- Settles O20. -/
theorem baseControlSendsTenBytes : Obligations.BaseControlSendsTenBytes := by
  intro speed radius s
  rw [exec_baseControl, baseControlFrame_eq, deliver]

/-- Settles O22: `Sound` by its operand test; no other operation delivers `InvalidInput`. -/
theorem onlySoundWithZeroIsInvalid : Obligations.OnlySoundWithZeroIsInvalid := by
  constructor
  · intro freq amp duration s hzero
    rcases soundFrame_cases freq amp duration with ⟨_, hframe⟩ | ⟨hnonzero, _⟩
    · rw [exec_sound, hframe, deliverEncoder_error, deliver]
    · exact absurd hzero hnonzero
  · intro i s t h ht
    obtain ⟨freq, amp, duration, rfl⟩ := eq_sound_of_invalidInput h ht
    exact ⟨freq, amp, duration, rfl, zero_of_sound_invalidInput h ht⟩

/-- Settles O23. -/
theorem soundSequenceSendsSevenBytes : Obligations.SoundSequenceSendsSevenBytes := by
  intro seq s
  rw [exec_soundSequence, soundSequenceFrame_eq, deliver]

/-- Settles O30. -/
theorem getControllerGainSendsConstant : Obligations.GetControllerGainSendsConstant := by
  intro s
  rw [exec_getControllerGain, getControllerGainFrame_eq, deliver]

end Sys2Proof.Machine
end

section
/-! The stream decoder (42_decoder.md): what a whole call comes to, pass by pass, and with it which bytes a call drops, keeps,
passes over and gives back. -/

namespace Sys2Proof.Machine

/-! ### Where a marker stands (R183, R184) -/

/-- A marker stands at `j` exactly when the bytes split there into `j` bytes, the marker, and the rest. -/
theorem markerAt_iff_append {B : List Byte} {j : Nat} :
    markerAt B j = true ↔ ∃ pre post, B = pre ++ 0xAA :: 0x55 :: post ∧ pre.length = j := by
  constructor
  · intro h
    have hlen := markerAt_lt h
    rw [← Nat.add_zero j, ← markerAt_drop, List.drop_eq_getElem_cons (by omega), List.drop_eq_getElem_cons hlen,
      markerAt_cons_cons_zero] at h
    refine ⟨B.take j, B.drop (j + 2), ?_, by simp; omega⟩
    rw [show (0xAA : Byte) = B[j] from h.1.symm, show (0x55 : Byte) = B[j + 1] from h.2.symm,
      ← List.drop_eq_getElem_cons hlen, ← List.drop_eq_getElem_cons (by omega), List.take_append_drop]
  · rintro ⟨pre, post, rfl, rfl⟩
    rw [← Nat.add_zero pre.length, ← markerAt_drop, List.drop_left, markerAt_cons_cons_zero]
    exact ⟨rfl, rfl⟩

/-- The first marker at or after the cursor is the one step 1 finds (R184). -/
theorem findMarker_eq_some {B : List Byte} {cur m : Nat} (hcur : cur ≤ m) (hm : markerAt B m = true)
    (hfirst : ∀ j, cur ≤ j → markerAt B j = true → m ≤ j) : findMarker B cur = some m := by
  cases hf : findMarker B cur with
  | none => simp [findMarker_none hf m hcur] at hm
  | some k =>
    obtain ⟨hk, hmark, hleast⟩ := findMarker_some hf
    have hle : k ≤ m := by
      by_contra hlt
      simp [hleast m hcur (by omega)] at hm
    rw [le_antisymm hle (hfirst k hk hmark)]

/-- Noise and then the first marker: step 1 finds the marker behind the noise (R185). -/
theorem findMarker_of_noise {B noise rest : List Byte} {cur : Nat} (h : B.drop cur = noise ++ 0xAA :: 0x55 :: rest)
    (hfirst : ∀ pre post, noise ++ 0xAA :: 0x55 :: rest = pre ++ 0xAA :: 0x55 :: post → noise.length ≤ pre.length) :
    findMarker B cur = some (cur + noise.length) := by
  refine findMarker_eq_some (by omega) ?_ fun j hj hmark => ?_
  · rw [← markerAt_drop, markerAt_iff_append]
    exact ⟨noise, rest, h, rfl⟩
  · obtain ⟨i, rfl⟩ := Nat.exists_eq_add_of_le hj
    rw [← markerAt_drop, h, markerAt_iff_append] at hmark
    obtain ⟨pre, post, hsplit, rfl⟩ := hmark
    have := hfirst pre post hsplit
    omega

/-- A scan that stands at a marker goes on to the candidate there. -/
theorem scanPass_of_marker {s : Scan} (h : markerAt s.buf s.cur = true) : scanPass s = judgeCandidate s := by
  simp only [scanPass, findMarker_of_markerAt h]
  rfl

theorem markerAt_of_drop {B rest : List Byte} {cur : Nat} (h : B.drop cur = 0xAA :: 0x55 :: rest) :
    markerAt B cur = true := by
  rw [← Nat.add_zero cur, ← markerAt_drop, h, markerAt_cons_cons_zero]
  exact ⟨rfl, rfl⟩

/-! ### What a candidate comes to (R192, R196) -/

/-- A candidate ends the call exactly when it is incomplete, and then it is kept whole (R188, R192). -/
theorem judgeCandidate_stop_iff {s : Scan} {r : List Byte} :
    judgeCandidate s = .stop r ↔
      r = s.buf.drop s.cur ∧ (r.length < 3 ∨ 3 ≤ (byteAt r 2).toNat ∧ r.length < 3 + (byteAt r 2).toNat) := by
  constructor
  · intro h
    rcases judgeCandidate_cases s with ⟨hn, hj⟩ | ⟨_, _, hj⟩ | ⟨hL, hn, hj⟩ | ⟨_, _, hj, _⟩ | ⟨_, _, hj, _⟩
    all_goals
      rw [hj] at h
      cases h
    · exact ⟨rfl, .inl (by simpa using hn)⟩
    · exact ⟨rfl, .inr (by simpa [byteAt_drop] using ⟨hL, hn⟩)⟩
  · rintro ⟨rfl, hshort⟩
    simp only [List.length_drop, byteAt_drop] at hshort
    rcases judgeCandidate_cases s with ⟨_, hj⟩ | ⟨_, _, _⟩ | ⟨_, _, hj⟩ | ⟨_, _, _⟩ | ⟨_, _, _⟩
    case inl | inr.inr.inl => exact hj
    all_goals omega

/-- A complete candidate whose trailing byte is not the fold of its payload is counted and passed over by one byte (R196). -/
theorem judgeCandidate_of_mismatch {s : Scan} {id size c : Byte} {payload rest : List Byte}
    (hlen : payload.length ≤ 252) (hc : c ≠ xorFold payload)
    (h : s.buf.drop s.cur = [0xAA, 0x55, BitVec.ofNat 8 (payload.length + 3), id, size] ++ payload ++ c :: rest) :
    judgeCandidate s = .move (setCur (s.cur + 1) (raiseInScan .checksumMismatch s)) := by
  have hL : (byteAt s.buf (s.cur + 2)).toNat = payload.length + 3 := by
    rw [← byteAt_drop, h]
    simp
    omega
  have hn : s.buf.length - s.cur = payload.length + 6 + rest.length := by
    rw [← List.length_drop, h]
    simp
    omega
  have hpayload : slice s.buf (s.cur + 5) (s.cur + 2 + (payload.length + 3)) = payload := by
    rw [show s.cur + 2 + (payload.length + 3) = s.cur + 5 + payload.length by omega, slice_eq_take_drop,
      ← List.drop_drop, h]
    simp
  have hlast : byteAt s.buf (s.cur + 2 + (payload.length + 3)) = c := by
    rw [show s.cur + 2 + (payload.length + 3) = s.cur + (5 + payload.length) by omega, ← byteAt_drop, h]
    simp [byteAt, List.getD_eq_getElem?_getD, Nat.add_comm 5]
  have hcases := judgeCandidate_cases s
  rw [hL, hpayload, hlast] at hcases
  rcases hcases with ⟨_, _⟩ | ⟨_, _, _⟩ | ⟨_, _, _⟩ | ⟨_, _, _, hmatch⟩ | ⟨_, _, hj, _⟩
  case inr.inr.inr.inl => exact absurd hmatch.symm hc
  case inr.inr.inr.inr => exact hj
  all_goals omega

/-! ### A call, pass by pass (R182, R197) -/

/-- R197: a pass that does not end the call leaves the buffer and raises the cursor, which never passes the end. -/
theorem scanPass_move {s s' : Scan} (h : scanPass s = .move s') :
    s'.buf = s.buf ∧ s.cur < s'.cur ∧ s'.cur ≤ s.buf.length := by
  rcases scanPass_cases s with ⟨_, hp⟩ | ⟨m, hm, hp⟩
  · cases hp.symm.trans h
  · obtain ⟨hbuf, hlt, hle⟩ := judgeCandidate_move (hp.symm.trans h)
    exact ⟨hbuf, (findMarker_some hm).1.trans_lt hlt, hle⟩

/-- Any two bounds on the passes that exceed the bytes left give the same call (R197, log 15). -/
theorem scanLoop_eq_of_lt {a b : Nat} {s : Scan} (ha : s.buf.length - s.cur < a) (hb : s.buf.length - s.cur < b) :
    scanLoop a s = scanLoop b s := by
  induction a generalizing b s with
  | zero => omega
  | succ a ih =>
    obtain ⟨b, rfl⟩ := Nat.exists_eq_add_one_of_ne_zero (by omega : b ≠ 0)
    simp only [scanLoop]
    cases hp : scanPass s with
    | stop r => rfl
    | move s' =>
      obtain ⟨hbuf, hlt, hle⟩ := scanPass_move hp
      exact ih (by rw [hbuf]; omega) (by rw [hbuf]; omega)

/-- A pass that ends the call gives its results. -/
theorem finishScan_of_stop {s : Scan} {r : List Byte} (h : scanPass s = .stop r) : finishScan s = scanResult (s, r) := by
  simp only [finishScan, scanLoop, h]

/-- A pass that moves on leaves the call to the scan it moved to. -/
theorem finishScan_of_move {s s' : Scan} (h : scanPass s = .move s') : finishScan s = finishScan s' := by
  obtain ⟨hbuf, hlt, hle⟩ := scanPass_move h
  have hloop : scanLoop (s.buf.length + 1) s = scanLoop s.buf.length s' := by simp only [scanLoop, h]
  rw [finishScan, hloop, scanLoop_eq_of_lt (by rw [hbuf]; omega) (Nat.lt_succ_of_le (Nat.sub_le ..)), finishScan]

/-- Moving the cursor to the marker that step 1 finds changes nothing: the results do not hold the cursor (R185). -/
theorem finishScan_setCur_marker {s : Scan} {m : Nat} (h : findMarker s.buf s.cur = some m) :
    finishScan s = finishScan (setCur m s) := by
  have hpass : scanPass s = scanPass (setCur m s) := by
    rw [scanPass_of_marker (s := setCur m s) (findMarker_some h).2.1]
    simp only [scanPass, h]
  cases hp : scanPass s with
  | stop r =>
    rw [finishScan_of_stop hp, finishScan_of_stop (hpass.symm.trans hp)]
    rfl
  | move s' => rw [finishScan_of_move hp, finishScan_of_move (hpass.symm.trans hp)]

/-- Every call ends in a pass that stops, and its residue is the one that pass answers. -/
theorem finishScan_ends (s : Scan) : ∃ t, scanPass t = .stop (finishScan s).newResidue := by
  suffices hends : ∀ fuel (s : Scan), s.buf.length - s.cur < fuel → ∃ t, scanPass t = .stop (scanLoop fuel s).2 from
    hends _ s (by omega)
  intro fuel
  induction fuel with
  | zero => omega
  | succ fuel ih =>
    intro s hfuel
    rcases scanLoop_succ fuel s with ⟨r, hp, hloop⟩ | ⟨s', hp, hloop⟩
    · exact ⟨s, by rw [hp, hloop]⟩
    · obtain ⟨hbuf, hlt, hle⟩ := scanPass_move hp
      rw [hloop]
      exact ih s' (by rw [hbuf]; omega)

/-- A residue that a pass stops with stops a call that begins with it, and is its residue again (R201). -/
theorem scanPass_residue {s : Scan} {r : List Byte} (h : scanPass s = .stop r) : scanPass (scanStart [] r) = .stop r := by
  rcases scanPass_cases s with ⟨_, hp⟩ | ⟨m, hm, hp⟩
  · cases hp.symm.trans h
    rcases trailingResidue_cases s with ⟨_, _, hlone⟩ | hnone
    · rw [hlone]; rfl
    · rw [hnone]; rfl
  · obtain ⟨hr, hshort⟩ := judgeCandidate_stop_iff.1 (hp.symm.trans h)
    have hmark : markerAt (scanStart [] r).buf 0 = true := by
      rw [scanStart_buf, List.append_nil, hr, markerAt_drop]
      exact (findMarker_some hm).2.1
    rw [scanPass_of_marker hmark]
    exact judgeCandidate_stop_iff.2 ⟨by simp, hshort⟩

/-! ### The statements -/

/-- Settles O35: step 1 finds the marker behind the noise, and the results do not hold the cursor. -/
theorem decodeDropsNoiseBeforeMarker : Obligations.DecodeDropsNoiseBeforeMarker := by
  intro s noise rest hdrop hfirst
  exact finishScan_setCur_marker (findMarker_of_noise hdrop hfirst)

/-- Settles O39. -/
theorem decodeKeepsIncompleteBody : Obligations.DecodeKeepsIncompleteBody := by
  intro s L body hdrop hL hbody
  have hstop : judgeCandidate s = .stop (0xAA :: 0x55 :: L :: body) :=
    judgeCandidate_stop_iff.2 ⟨hdrop.symm, .inr ⟨hL, by simp; omega⟩⟩
  rw [finishScan_of_stop ((scanPass_of_marker (markerAt_of_drop hdrop)).trans hstop)]
  rfl

/-- Settles O41. -/
theorem decodeSkipsMismatchByOneByte : Obligations.DecodeSkipsMismatchByOneByte := by
  intro s id size c payload rest hlen hc hdrop
  rw [finishScan_of_move ((scanPass_of_marker (markerAt_of_drop hdrop)).trans (judgeCandidate_of_mismatch hlen hc hdrop))]
  rfl

/-- Settles O52: the pass that ended the first call stops the second one at once, with the same residue. -/
theorem emptyInputYieldsNothing : Obligations.EmptyInputYieldsNothing := by
  refine ⟨rfl, fun newBytes r => ?_⟩
  obtain ⟨t, hstop⟩ := finishScan_ends (scanStart newBytes r)
  rw [decodeStream, decodeStream, finishScan_of_stop (scanPass_residue hstop), scanResult_newResidue]

end Sys2Proof.Machine
end

section
/-! What a step of the machine can do (10_state.md R24, R25, 70_reset_and_hazards.md R270), and the two invariants of `RES`
(R22, R23) that follow from the shape of what a `DECODE` returns. -/

namespace Sys2Proof.Machine

/-! ### The shape of a returned residue (R23, R203) -/

/-- From its third byte on, a residue of the fourth shape is bounded by its own Length byte (R23). -/
theorem residueShape_body (L : Byte) (t : List Byte) :
    residueShape (0xAA :: 0x55 :: L :: t) = true ↔ 3 ≤ L.toNat ∧ t.length < L.toNat := by
  simp only [residueShape, Bool.and_eq_true, decide_eq_true_eq]
  simp only [Config.marker0, Config.marker1, Config.minLength, beq_self_eq_true, true_and]
  omega

/-- The longest residue stands for a candidate of Length 255 without its last byte (R203). -/
theorem length_le_of_residueShape {r : List Byte} (h : residueShape r = true) : r.length ≤ 257 := by
  match r with
  | [] | [_] | [_, _] => simp
  | _ :: _ :: L :: t =>
    have hL := L.isLt
    simp only [residueShape, Bool.and_eq_true, decide_eq_true_eq] at h
    obtain ⟨_, _, _, ht⟩ := h
    simp only [List.length_cons]
    omega

/-- A marker at the front of a byte sequence is its first two bytes (R183). -/
theorem eq_cons_of_markerAt_zero {B : List Byte} (h : markerAt B 0 = true) : ∃ rest, B = 0xAA :: 0x55 :: rest := by
  obtain ⟨pre, post, rfl, hpre⟩ := markerAt_iff_append.1 h
  exact ⟨post, by rw [List.length_eq_zero_iff.1 hpre, List.nil_append]⟩

/-- A pass that ends the call answers a residue of one of the four shapes (R23). -/
theorem residueShape_of_scanPass_stop {s : Scan} {r : List Byte} (h : scanPass s = .stop r) : residueShape r = true := by
  rcases scanPass_cases s with ⟨_, hp⟩ | ⟨m, hm, hp⟩
  · cases hp.symm.trans h
    rcases trailingResidue_cases s with ⟨_, _, hlone⟩ | hnone
    · rw [hlone]; rfl
    · rw [hnone]; rfl
  · obtain ⟨rfl, hshort⟩ := judgeCandidate_stop_iff.1 (hp.symm.trans h)
    obtain ⟨rest, hrest⟩ : ∃ rest, s.buf.drop m = 0xAA :: 0x55 :: rest :=
      eq_cons_of_markerAt_zero (by rw [markerAt_drop]; exact (findMarker_some hm).2.1)
    simp only [setCur_buf, setCur_cur, hrest] at hshort ⊢
    cases rest with
    | nil => rfl
    | cons L t =>
      rw [residueShape_body]
      simp at hshort
      omega

theorem residueShape_newResidue (newBytes r : List Byte) : residueShape (decodeStream newBytes r).newResidue = true := by
  obtain ⟨_, hstop⟩ := finishScan_ends (scanStart newBytes r)
  exact residueShape_of_scanPass_stop hstop

/-- Settles O49. -/
theorem returnedResidueHasItsShape : Obligations.ReturnedResidueHasItsShape := by
  intro newBytes r
  exact ⟨residueShape_newResidue newBytes r, length_le_of_residueShape (residueShape_newResidue newBytes r)⟩

/-! ### What a step can do -/

/-- Where the value of `RES` after a request comes from: it is kept, emptied by a reset, returned by a `DECODE`, or loaded by
the caller, with at most `RES_MAX` bytes (R22, R24, R270). -/
inductive ResidueOrigin (q : Request) (before : List Byte) : List Byte → Prop where
  | kept : ResidueOrigin q before before
  | emptied : ResidueOrigin q before []
  | decoded (newBytes : List Byte) : ResidueOrigin q before (decodeStream newBytes before).newResidue
  | loaded (v : List Byte) (hq : q = .loadResidue v) (hv : v.length ≤ 257) : ResidueOrigin q before v

/-- An operation leaves the further requests, and `RES` after it is the old one or one a `DECODE` returned (R22, R62). -/
theorem exec_residueOrigin {i : Instr} {s t : State} (q : Request) (h : exec i s = .next t) :
    t.requests = s.requests ∧ ResidueOrigin q s.res t.res := by
  rcases exec_cases i s with ⟨newBytes, _, he⟩ | ⟨_, r, he⟩
  · cases he.symm.trans h
    exact ⟨rfl, .decoded newBytes⟩
  · cases he.symm.trans h
    exact ⟨rfl, .kept⟩

/-- A step without a request changes nothing (R245); every other step takes the first request off the port and gives `RES` a
value of one of the four origins. -/
theorem step_next_cases {s s' : State} (h : step s = .next s') :
    (s.requests = [] ∧ s' = s) ∨
    (∃ q rest, s.requests = q :: rest ∧ s'.requests = rest ∧ ResidueOrigin q s.res s'.res) := by
  rcases serve_cases s with ⟨hq, hs⟩ | ⟨i, rest, hq, hs⟩ | ⟨b, i, rest, hq, _, hs⟩ | ⟨b, e, rest, hq, _, hs⟩ |
    ⟨v, rest, hq, hs⟩ | ⟨rest, hq, hs⟩ | ⟨rest, hq, hs⟩
  all_goals simp only [step, hs] at h
  case inl => cases h; exact .inl ⟨hq, rfl⟩
  case inr.inl | inr.inr.inl => exact .inr ⟨_, rest, hq, exec_residueOrigin _ h⟩
  case inr.inr.inr.inl => cases h
  case inr.inr.inr.inr.inl =>
    rcases loadResidue_cases v { s with requests := rest } with ⟨hv, hl⟩ | ⟨_, hl⟩
    · cases hl.symm.trans h
      exact .inr ⟨_, rest, hq, rfl, .loaded v rfl hv⟩
    · cases hl.symm.trans h
  case inr.inr.inr.inr.inr.inl => cases h; exact .inr ⟨_, rest, hq, rfl, .kept⟩
  case inr.inr.inr.inr.inr.inr => cases h; exact .inr ⟨_, rest, hq, rfl, .emptied⟩

/-! ### The invariants of `RES` -/

/-- Settles O3: a returned residue meets the bound by its shape, a loaded one by the limit on loads. -/
theorem stepKeepsResidueBound : Obligations.StepKeepsResidueBound := by
  intro s s' hfits h
  rcases step_next_cases h with ⟨_, rfl⟩ | ⟨q, rest, _, _, horigin⟩
  · exact hfits
  · rw [State.residueFits, Config.resMax] at hfits ⊢
    generalize s'.res = after at horigin ⊢
    cases horigin with
    | kept => exact hfits
    | emptied => simp
    | decoded newBytes => exact length_le_of_residueShape (residueShape_newResidue newBytes s.res)
    | loaded _ _ hv => exact hv

/-- Settles O4: what is loaded has its shape by hypothesis, and the requests left are among those that were there. -/
theorem stepKeepsResidueShape : Obligations.StepKeepsResidueShape := by
  intro s s' hshape hloads h
  rcases step_next_cases h with ⟨_, rfl⟩ | ⟨q, rest, hq, hrest, horigin⟩
  · exact ⟨hshape, hloads⟩
  · rw [hq] at hloads
    refine ⟨?_, fun v hv => hloads v (List.mem_cons_of_mem _ (hrest ▸ hv))⟩
    generalize s'.res = after at horigin ⊢
    cases horigin with
    | kept => exact hshape
    | emptied => rfl
    | decoded newBytes => exact residueShape_newResidue newBytes s.res
    | loaded _ hload _ => exact hloads _ (hload ▸ List.mem_cons_self)

/-- Settles O1. -/
theorem resetLeavesEmptyResidue : Obligations.ResetLeavesEmptyResidue :=
  ⟨reset_res, reset_result, reset_requests⟩

/-- Settles O2. -/
theorem resetMeetsResidueInvariants : Obligations.ResetMeetsResidueInvariants :=
  ⟨by simp [State.residueFits], by rw [reset_res]; rfl⟩

/-! ### Which request a step serves, and what it leaves -/

/-- A step that serves an operation, by value or by image, runs it with the request taken off the port (R62). -/
theorem step_of_serve_operation {s t : State} {i : Instr} (h : serve s = .operation i t) : step s = exec i t := by
  simp only [step, h]

/-- A step that serves an image runs the operation the image decodes to. -/
theorem step_of_image {s : State} {b : List Byte} {i : Instr} {rest : List Request} (hq : s.requests = .image b :: rest)
    (hb : decodeRequest b = .ok i) : step s = exec i { s with requests := rest } :=
  step_of_serve_operation (by simp only [serve, hq, hb])

/-- Settles O5: by value, by image, and by table pattern, which `withFetchWord` puts in front as an image. -/
theorem stepRunsRequestedOperation : Obligations.StepRunsRequestedOperation := by
  refine ⟨fun s i rest hq => ?_, fun s b i rest hq hb => step_of_image hq hb, fun s nbits w i hw => ?_⟩
  · exact step_of_serve_operation (by simp only [serve, hq])
  · refine step_of_image (requestImage_requests s _) ?_
    cases hd : decodeRequest (tableImage nbits w) with
    | ok j =>
      simp only [decodeTableWord, hd, Except.toOption, Option.some.injEq] at hw
      rw [hw]
    | error e => simp [decodeTableWord, hd, Except.toOption] at hw

/-- Settles O6. -/
theorem stepRefusesUnknownImage : Obligations.StepRefusesUnknownImage := by
  intro s b e rest hq hb
  simp only [step, serve, hq, hb]

/-- Settles O7. -/
theorem stepWithoutRequestChangesNothing : Obligations.StepWithoutRequestChangesNothing := by
  intro s hq
  simp only [step, serve, hq]

/-- Settles O8: the load is done or turned away by its length. -/
theorem loadWritesResidueUpToItsSize : Obligations.LoadWritesResidueUpToItsSize := by
  intro s v rest hq
  have hstep : step s = loadResidue v { s with requests := rest } := by simp only [step, serve, hq]
  rw [hstep]
  rcases loadResidue_cases v { s with requests := rest } with ⟨hle, hl⟩ | ⟨hlt, hl⟩
  · exact ⟨fun _ => hl, fun hlong => by omega⟩
  · exact ⟨fun hshort => by omega, fun _ => hl⟩

/-- Settles O9. -/
theorem readAndResetBetweenOperations : Obligations.ReadAndResetBetweenOperations := by
  intro s rest
  constructor
  · intro hq
    simp only [step, serve, hq, readOutResidue, deliver, readResidue_eq]
  · intro hq
    simp only [step, serve, hq, resetBlock, State.reset]

/-! ### All nine operations -/

/-- Settles O10. -/
theorem everyOperationCompletes : Obligations.EveryOperationCompletes := by
  intro i s
  rcases exec_cases i s with ⟨_, _, he⟩ | ⟨_, _, he⟩
  · exact ⟨_, he, rfl⟩
  · exact ⟨_, he, rfl⟩

/-- An operation other than a carried `DECODE` writes the result ports only (R22, R51, R141). -/
theorem exec_of_not_carried {i : Instr} (hi : ∀ newBytes, i ≠ .decode newBytes .carried) (s : State) :
    ∃ r, exec i s = .next (deliver r s) := by
  rcases exec_cases i s with ⟨newBytes, rfl, _⟩ | ⟨_, hr⟩
  · exact absurd rfl (hi newBytes)
  · exact hr

/-- Settles O11. -/
theorem onlyCarriedDecodeWritesResidue : Obligations.OnlyCarriedDecodeWritesResidue := by
  intro i s t hi h
  obtain ⟨r, he⟩ := exec_of_not_carried hi s
  cases he.symm.trans h
  rfl

/-- Settles O12: every operation but a carried `DECODE` names its result without looking at the state. -/
theorem resultsDependOnOperandsOnly : Obligations.ResultsDependOnOperandsOnly := by
  intro i hi
  cases i with
  | decode newBytes residue =>
    cases residue with
    | carried => exact absurd rfl (hi newBytes)
    | supplied given => exact ⟨_, fun _ => rfl⟩
  | sound freq amp duration =>
    rcases soundFrame_cases freq amp duration with ⟨_, hf⟩ | ⟨_, hf⟩
    all_goals exact ⟨_, fun s => by rw [exec_sound, hf]; rfl⟩
  | checksum | baseControl | soundSequence | requestExtra | generalPurposeOutput | setControllerGain | getControllerGain =>
    exact ⟨_, fun _ => rfl⟩

/-- Settles O33. -/
theorem decodeCompletesInBothUses : Obligations.DecodeCompletesInBothUses :=
  ⟨fun _ _ => rfl, fun _ _ _ => rfl⟩

/-- Settles O13: a carried `DECODE` reads `RES`, which the results are no part of; every other operation reads nothing. -/
theorem noOperationReadsEarlierResults : Obligations.NoOperationReadsEarlierResults := by
  intro i s r
  by_cases hi : ∀ newBytes, i ≠ .decode newBytes .carried
  · obtain ⟨r', he⟩ := resultsDependOnOperandsOnly i hi
    rw [he, he]
  · push Not at hi
    obtain ⟨newBytes, rfl⟩ := hi
    rw [decodeCompletesInBothUses.1, decodeCompletesInBothUses.1]

/-- Settles O14: the other operation changed the result ports only, and no operation reads those. -/
theorem decodeUnaffectedByOtherOperations : Obligations.DecodeUnaffectedByOtherOperations := by
  intro i s t newBytes hi h
  obtain ⟨r, he⟩ := exec_of_not_carried hi s
  cases he.symm.trans h
  exact noOperationReadsEarlierResults _ s r

/-- A run goes on from the state its first step answers. -/
theorem core_run_succ {s s' : State} (h : step s = .next s') (k : Nat) : core.run (k + 1) s = core.run k s' := by
  simp only [Host.Core.run, core, h]

/-- Settles O47: each carried `DECODE` leaves in `RES` what the caller would supply to the next. -/
theorem carriedRunThreadsTheResidue : Obligations.CarriedRunThreadsTheResidue := by
  intro cs
  induction cs with
  | nil => exact fun s hq => ⟨s, rfl, rfl, hq⟩
  | cons c cs ih =>
    intro s hq
    rw [List.map_cons] at hq
    have hstep : step s = _ :=
      (stepRunsRequestedOperation.1 s _ _ hq).trans (decodeCompletesInBothUses.1 c _)
    obtain ⟨t, hrun, hres, hreq⟩ := ih
      { res := (decodeStream c s.res).newResidue
        result := .decoded (decodeStream c s.res)
        requests := cs.map fun c => .operation (.decode c .carried) } rfl
    exact ⟨t, (core_run_succ hstep cs.length).trans hrun, hres, hreq⟩

end Sys2Proof.Machine
end

section
/-! The flag bytes of the encoder (30_encoding.md R92 to R94) and the byte images of requests, which hold the same bytes: what an
image decodes to is what it encodes (log 3). -/

namespace Sys2Proof.Machine

/-! ### Flag bytes (R53, R92 to R94) -/

/-- A flag shows at its own position of the byte and nowhere else (R53). -/
theorem getLsbD_bitAt (b : Bool) {k : Nat} (hk : k < 8) (j : Nat) : (bitAt b k).getLsbD j = (b && decide (j = k)) := by
  cases b with
  | false => simp [bitAt]
  | true =>
    simp only [bitAt, if_true, BitVec.getLsbD_shiftLeft, BitVec.getLsbD_one, Bool.true_and]
    by_cases hj : j = k
    · simp [hj, hk]
    · simp [hj]
      omega

/-- The bits of the `RequestExtra` byte (R92). -/
theorem getLsbD_requestExtraFlags (hwVer fwVer udid : Bool) (j : Nat) :
    (requestExtraFlags hwVer fwVer udid).getLsbD j =
      (udid && decide (j = 7) || fwVer && decide (j = 1) || hwVer && decide (j = 0)) := by
  simp only [requestExtraFlags, BitVec.getLsbD_or, getLsbD_bitAt, Nat.reduceLT]

/-- The bits of `byte0`: the four outputs, then the four rails (R93). -/
theorem getLsbD_gpoByte0 (dout pwr : Bits4) (j : Nat) :
    (gpoByte0 dout pwr).getLsbD j =
      (dout.b0 && decide (j = 0) || dout.b1 && decide (j = 1) || dout.b2 && decide (j = 2) || dout.b3 && decide (j = 3) ||
        pwr.b0 && decide (j = 4) || pwr.b1 && decide (j = 5) || pwr.b2 && decide (j = 6) || pwr.b3 && decide (j = 7)) := by
  simp only [gpoByte0, BitVec.getLsbD_or, getLsbD_bitAt, Nat.reduceLT]

/-- The bits of `byte1`: the four LEDs (R93). -/
theorem getLsbD_gpoByte1 (led : Bits4) (j : Nat) :
    (gpoByte1 led).getLsbD j =
      (led.b0 && decide (j = 0) || led.b1 && decide (j = 1) || led.b2 && decide (j = 2) || led.b3 && decide (j = 3)) := by
  simp only [gpoByte1, BitVec.getLsbD_or, getLsbD_bitAt, Nat.reduceLT]

/-- The `userConfigured` byte has its flag in bit 0 and no other bit (R94). -/
theorem userConfiguredByte_eq_bitAt (uc : Bool) : userConfiguredByte uc = bitAt uc 0 := by
  cases uc <;> rfl

end Sys2Proof.Machine

namespace Sys2Proof

open Sys2Proof.Machine

/-! ### Operand bytes: what is packed is read back, and what is read is packed again -/

theorem bits4Of_gpoByte0 (dout pwr : Bits4) :
    bits4Of (gpoByte0 dout pwr) 0 = dout ∧ bits4Of (gpoByte0 dout pwr) 4 = pwr := by
  simp only [bits4Of, getLsbD_gpoByte0]
  simp

theorem bits4Of_gpoByte1 (led : Bits4) : bits4Of (gpoByte1 led) 0 = led := by
  simp only [bits4Of, getLsbD_gpoByte1]
  simp

/-- No operand names the upper bits of `byte1` (R93). -/
theorem gpoByte1_reserved (led : Bits4) : gpoByte1 led &&& 0xF0#8 = 0 := by
  apply BitVec.eq_of_getLsbD_eq
  intro k hk
  rw [BitVec.getLsbD_and, getLsbD_gpoByte1]
  interval_cases k <;> simp

/-- The eight bits of `byte0` are all named (R93). -/
theorem gpoByte0_bits4Of (b : Byte) : gpoByte0 (bits4Of b 0) (bits4Of b 4) = b := by
  apply BitVec.eq_of_getLsbD_eq
  intro k hk
  rw [getLsbD_gpoByte0]
  interval_cases k <;> simp [bits4Of]

/-- A byte with none of the bits of a mask is 0 at every position of the mask. -/
theorem getLsbD_of_and_eq_zero {b mask : Byte} (h : b &&& mask = 0) (k : Nat) :
    b.getLsbD k = (b.getLsbD k && !mask.getLsbD k) := by
  have hbit := congrArg (fun x : Byte => x.getLsbD k) h
  simp only [BitVec.getLsbD_and] at hbit
  cases hb : b.getLsbD k <;> simp_all

theorem gpoByte1_bits4Of {b : Byte} (h : b &&& 0xF0#8 = 0) : gpoByte1 (bits4Of b 0) = b := by
  apply BitVec.eq_of_getLsbD_eq
  intro k hk
  rw [getLsbD_gpoByte1, getLsbD_of_and_eq_zero h k]
  interval_cases k <;> simp [bits4Of]

theorem requestExtraFlags_getLsbD {b : Byte} (h : b &&& 0x7C#8 = 0) :
    requestExtraFlags (b.getLsbD 0) (b.getLsbD 1) (b.getLsbD 7) = b := by
  apply BitVec.eq_of_getLsbD_eq
  intro k hk
  rw [getLsbD_requestExtraFlags, getLsbD_of_and_eq_zero h k]
  interval_cases k <;> simp

theorem userConfiguredByte_getLsbD {b : Byte} (h : b &&& 0xFE#8 = 0) : userConfiguredByte (b.getLsbD 0) = b := by
  rw [userConfiguredByte_eq_bitAt]
  apply BitVec.eq_of_getLsbD_eq
  intro k hk
  rw [getLsbD_bitAt _ (by decide), getLsbD_of_and_eq_zero h k]
  interval_cases k <;> simp

theorem userConfiguredByte_bits (uc : Bool) : userConfiguredByte uc &&& 0xFE#8 = 0 ∧ (userConfiguredByte uc).getLsbD 0 = uc := by
  cases uc <;> decide

theorem le16_halfOf (b0 b1 : Byte) : le16 (halfOf b0 b1) = [b0, b1] := by
  have h0 : (halfOf b0 b1).extractLsb' 0 8 = b0 := BitVec.extractLsb'_append_eq_right
  have h1 : (halfOf b0 b1).extractLsb' 8 8 = b1 := BitVec.extractLsb'_append_eq_left
  rw [le16, h0, h1]

theorem le32_wordOf (b0 b1 b2 b3 : Byte) : le32 (wordOf b0 b1 b2 b3) = [b0, b1, b2, b3] := by
  have h0 : (wordOf b0 b1 b2 b3).extractLsb' 0 8 = b0 := BitVec.extractLsb'_append_eq_right
  have h1 : (wordOf b0 b1 b2 b3).extractLsb' 8 8 = b1 :=
    (BitVec.extractLsb'_append_eq_of_le (by decide)).trans BitVec.extractLsb'_append_eq_right
  have h2 : (wordOf b0 b1 b2 b3).extractLsb' 16 8 = b2 :=
    (BitVec.extractLsb'_append_eq_of_le (by decide)).trans
      ((BitVec.extractLsb'_append_eq_of_le (by decide)).trans BitVec.extractLsb'_append_eq_right)
  have h3 : (wordOf b0 b1 b2 b3).extractLsb' 24 8 = b3 :=
    (BitVec.extractLsb'_append_eq_of_le (by decide)).trans
      ((BitVec.extractLsb'_append_eq_of_le (by decide)).trans BitVec.extractLsb'_append_eq_left)
  rw [le32, h0, h1, h2, h3]

/-! ### Images -/

/-- An image with a command's header decodes to what its operand bytes decode to. -/
theorem decodeRequest_frameHeader (c : Command) (operands : List Byte) :
    decodeRequest (frameHeader c ++ operands) = decodeOperands c operands := by
  cases c <;> rfl

theorem decodeOperands_baseControl (s0 s1 r0 r1 : Byte) :
    decodeOperands .baseControl [s0, s1, r0, r1] = .ok (.baseControl (halfOf s0 s1) (halfOf r0 r1)) := rfl

theorem decodeOperands_requestExtra (flags : Byte) :
    decodeOperands .requestExtra [flags] =
      if flags &&& 0x7C#8 = 0 then .ok (.requestExtra (flags.getLsbD 0) (flags.getLsbD 1) (flags.getLsbD 7))
      else .error .reservedBits := rfl

theorem decodeOperands_generalPurposeOutput (byte0 byte1 : Byte) :
    decodeOperands .generalPurposeOutput [byte0, byte1] =
      if byte1 &&& 0xF0#8 = 0 then
        .ok (.generalPurposeOutput (bits4Of byte0 0) (bits4Of byte0 4) (bits4Of byte1 0))
      else .error .reservedBits := rfl

theorem decodeOperands_setControllerGain (uc p0 p1 p2 p3 i0 i1 i2 i3 d0 d1 d2 d3 : Byte) :
    decodeOperands .setControllerGain [uc, p0, p1, p2, p3, i0, i1, i2, i3, d0, d1, d2, d3] =
      if uc &&& 0xFE#8 = 0 then
        .ok (.setControllerGain (uc.getLsbD 0) (wordOf p0 p1 p2 p3) (wordOf i0 i1 i2 i3) (wordOf d0 d1 d2 d3))
      else .error .reservedBits := rfl

/-- What the operand bytes of a command decode to has those bytes as its operands. -/
theorem encodeRequest_of_decodeOperands {c : Command} {operands : List Byte} {i : Instr}
    (h : decodeOperands c operands = .ok i) : encodeRequest i = frameHeader c ++ operands := by
  cases c with
  | baseControl =>
    rcases operands with _ | ⟨s0, _ | ⟨s1, _ | ⟨r0, _ | ⟨r1, _ | ⟨_, _⟩⟩⟩⟩⟩ <;> cases h
    simp only [encodeRequest, le16_halfOf, List.cons_append, List.nil_append]
  | sound =>
    rcases operands with _ | ⟨freq, _ | ⟨amp, _ | ⟨duration, _ | ⟨_, _⟩⟩⟩⟩ <;> cases h
    rfl
  | soundSequence =>
    rcases operands with _ | ⟨seq, _ | ⟨_, _⟩⟩ <;> cases h
    rfl
  | requestExtra =>
    rcases operands with _ | ⟨flags, _ | ⟨_, _⟩⟩
    case cons.nil =>
      rw [decodeOperands_requestExtra] at h
      split at h <;> cases h
      next hreserved => rw [encodeRequest, requestExtraFlags_getLsbD hreserved]
    all_goals cases h
  | generalPurposeOutput =>
    rcases operands with _ | ⟨byte0, _ | ⟨byte1, _ | ⟨_, _⟩⟩⟩
    case cons.cons.nil =>
      rw [decodeOperands_generalPurposeOutput] at h
      split at h <;> cases h
      next hreserved => rw [encodeRequest, gpoByte0_bits4Of, gpoByte1_bits4Of hreserved]
    all_goals cases h
  | setControllerGain =>
    rcases operands with _ | ⟨uc, _ | ⟨p0, _ | ⟨p1, _ | ⟨p2, _ | ⟨p3, _ | ⟨i0, _ | ⟨i1, _ | ⟨i2, _ | ⟨i3, _ | ⟨d0, _ |
      ⟨d1, _ | ⟨d2, _ | ⟨d3, _ | ⟨_, _⟩⟩⟩⟩⟩⟩⟩⟩⟩⟩⟩⟩⟩⟩
    case cons.cons.cons.cons.cons.cons.cons.cons.cons.cons.cons.cons.cons.nil =>
      rw [decodeOperands_setControllerGain] at h
      split at h <;> cases h
      next hreserved =>
        simp only [encodeRequest, userConfiguredByte_getLsbD hreserved, le32_wordOf, List.cons_append, List.nil_append]
    all_goals cases h
  | getControllerGain =>
    cases operands <;> cases h
    rfl

/-- A residue split off a byte sequence has the bytes it was split from as its image. -/
theorem residueImage_of_splitResidue {b r t : List Byte} (h : splitResidue b = some (r, t)) : residueImage r ++ t = b := by
  induction b using splitResidue.induct generalizing r t with
  | case1 => cases h
  | case2 =>
    cases h
    rfl
  | case3 c hc => simp only [splitResidue, hc, if_false, reduceCtorEq] at h
  | case4 b t' =>
    cases h
    rfl
  | case5 b t' hc ih =>
    simp only [splitResidue, hc, if_false, if_true, Option.map_eq_some_iff] at h
    obtain ⟨⟨r', t''⟩, hsplit, hrt⟩ := h
    cases hrt
    rw [residueImage, List.cons_append, List.cons_append, ih hsplit]
  | case6 c b t' h0 h1 => simp only [splitResidue, h0, h1, if_false, reduceCtorEq] at h

/-- Settles O58: an image has a select code, and what follows it is given back, or a command's header and operand bytes. -/
theorem decodedImagesAreCanonical : Obligations.DecodedImagesAreCanonical := by
  intro b i h
  rcases b with _ | ⟨m0, _ | ⟨m1, _ | ⟨sel, rest⟩⟩⟩
  case cons.cons.cons =>
    simp only [decodeRequest] at h
    split at h
    next => cases h
    next hmarker =>
    simp only [not_or, not_not] at hmarker
    obtain ⟨rfl, rfl⟩ := hmarker
    split at h
    next hsel =>
      cases h
      rw [encodeRequest, hsel]
    split at h
    next hsel =>
      split at h
      next residue newBytes hsplit =>
        cases h
        rw [encodeRequest, residueImage_of_splitResidue hsplit, hsel]
      next => cases h
    split at h
    next hsel =>
      cases h
      rw [encodeRequest, hsel]
    split at h
    next id size operands =>
      split at h
      next c hc =>
        rw [encodeRequest_of_decodeOperands h, frameHeader_of_commandOfHeader hc]
        rfl
      next => cases h
    next => cases h
  all_goals cases h

/-- Settles O57: by the select code, or by the command's header and what its operand bytes decode to. -/
theorem encodedRequestsDecodeBack : Obligations.EncodedRequestsDecodeBack := by
  intro i _
  cases i with
  | checksum buf => rfl
  | baseControl speed radius =>
    rw [encodeRequest, decodeRequest_frameHeader]
    simp only [le16, List.cons_append, List.nil_append, decodeOperands_baseControl, halfOf_le16]
  | sound freq amp duration => exact decodeRequest_frameHeader .sound [freq, amp, duration]
  | soundSequence seq => exact decodeRequest_frameHeader .soundSequence [seq]
  | requestExtra hwVer fwVer udid =>
    obtain ⟨hreserved, hhw, hfw, hudid⟩ := requestExtraFlags_bits hwVer fwVer udid
    rw [encodeRequest, decodeRequest_frameHeader, decodeOperands_requestExtra, if_pos hreserved, hhw, hfw, hudid]
  | generalPurposeOutput dout pwr led =>
    obtain ⟨hdout, hpwr⟩ := bits4Of_gpoByte0 dout pwr
    rw [encodeRequest, decodeRequest_frameHeader, decodeOperands_generalPurposeOutput,
      if_pos (gpoByte1_reserved led), hdout, hpwr, bits4Of_gpoByte1]
  | setControllerGain uc p i d =>
    obtain ⟨hreserved, huc⟩ := userConfiguredByte_bits uc
    rw [encodeRequest, decodeRequest_frameHeader]
    simp only [le32, List.cons_append, List.nil_append, decodeOperands_setControllerGain, if_pos hreserved, huc, wordOf_le32]
  | getControllerGain => rfl
  | decode newBytes residue =>
    cases residue with
    | carried => rfl
    | supplied residue =>
      have hsplit := splitResidue_residueImage residue newBytes
      simp [encodeRequest, decodeRequest, hsplit, Config.selDecodeSupplied, Config.selDecodeCarried]

/-- Settles O59. -/
theorem tablePatternsDecode : Obligations.TablePatternsDecode := by
  refine ⟨?_, ?_, ?_, ?_, rfl, rfl⟩ <;> decide

end Sys2Proof
end

section
/-! The checksum (40_checksum.md): bit by bit, as the streaming registers form it, and what changes it. -/

namespace Sys2Proof.Machine

/-- Each bit of a fold is the parity of that bit over the bytes folded (R125). -/
theorem getLsbD_xorFold (s : List Byte) (k : Nat) :
    (xorFold s).getLsbD k = decide (s.countP (fun b => b.getLsbD k) % 2 = 1) := by
  induction s with
  | nil => simp
  | cons b s ih =>
    rw [xorFold_cons, BitVec.getLsbD_xor, ih, List.countP_cons, Bool.eq_iff_iff]
    cases b.getLsbD k <;> simp
    omega

/-- The fold does not see the order of the bytes (R125). -/
theorem xorFold_perm {s t : List Byte} (h : s.Perm t) : xorFold s = xorFold t := by
  induction h with
  | nil => rfl
  | cons b _ ih => rw [xorFold_cons, xorFold_cons, ih]
  | swap a b s => simp only [xorFold_cons]; ac_rfl
  | trans _ _ ih₁ ih₂ => exact ih₁.trans ih₂

/-- From registers that have counted `idx` bytes, the bytes up to offset 5 are counted and the others folded (R124). -/
theorem foldl_csuFeed (buf : List Byte) (c : Csu) (hidx : c.idx.toNat ≤ 5) :
    (buf.foldl csuFeed c).acc = c.acc ^^^ xorFold (buf.drop (5 - c.idx.toNat)) ∧
      (buf.foldl csuFeed c).idx.toNat = min 5 (c.idx.toNat + buf.length) := by
  induction buf generalizing c with
  | nil => simp [hidx]
  | cons b buf ih =>
    rw [List.foldl_cons]
    rcases csuFeed_cases c b with ⟨hge, hfeed⟩ | ⟨hlt, hfeed⟩
    · have hidx5 : c.idx.toNat = 5 := le_antisymm hidx hge
      obtain ⟨hacc, hpos⟩ := ih { acc := c.acc ^^^ b, idx := c.idx } hidx
      rw [hfeed, hacc, hpos]
      simp [hidx5, BitVec.xor_assoc]
    · have hnext : (c.idx + 1).toNat = c.idx.toNat + 1 := by bv_omega
      obtain ⟨hacc, hpos⟩ := ih { acc := c.acc, idx := c.idx + 1 } (by rw [hnext]; omega)
      rw [hfeed, hacc, hpos, hnext, show 5 - c.idx.toNat = 5 - (c.idx.toNat + 1) + 1 by omega, List.drop_succ_cons,
        List.length_cons]
      exact ⟨rfl, by omega⟩

/-- Behind five bytes or more, the checksum is that of the bytes before with the fold of those after (R120). -/
theorem checksum_append {h : List Byte} (hlen : 5 ≤ h.length) (p : List Byte) :
    checksum (h ++ p) = checksum h ^^^ xorFold p := by
  rw [checksum_eq, checksum_eq, List.drop_append_of_le_length hlen, xorFold_append]

/-- Settles O16. -/
theorem checksumBitsAreParities : Obligations.ChecksumBitsAreParities := by
  intro buf k _
  rw [checksum_eq, getLsbD_xorFold]

/-- Settles O17: the registers start cleared. -/
theorem streamingRegistersComputeChecksum : Obligations.StreamingRegistersComputeChecksum := by
  intro buf
  have h := foldl_csuFeed buf csuClear (by simp)
  simpa [checksum_eq] using h

/-- Settles O18: five header bytes fold to nothing. -/
theorem checksumIgnoresHeaderAndOrder : Obligations.ChecksumIgnoresHeaderAndOrder := by
  intro h h' p p' hh hh' hp
  have hheader : ∀ g : List Byte, g.length = 5 → checksum g = 0 := fun g hg => by
    rw [checksum_eq, List.drop_eq_nil_of_le hg.le, xorFold_nil]
  rw [checksum_append hh.ge, checksum_append hh'.ge, hheader h hh, hheader h' hh', xorFold_perm hp]

/-- Settles O19: all but the changed byte cancels. -/
theorem checksumDetectsOneChangedByte : Obligations.ChecksumDetectsOneChangedByte := by
  intro h p q x y hlen hxy
  have hsum : ∀ z, checksum (h ++ p ++ z :: q) = z ^^^ (checksum (h ++ p) ^^^ xorFold q) := fun z => by
    rw [checksum_append (by rw [List.length_append]; omega), xorFold_cons]
    ac_rfl
  rw [hsum, hsum]
  constructor
  · rw [BitVec.xor_comm y, BitVec.xor_assoc, ← BitVec.xor_assoc (checksum (h ++ p) ^^^ xorFold q), BitVec.xor_self,
      BitVec.zero_xor]
  · exact fun heq => hxy ((BitVec.xor_left_inj _).1 heq)

end Sys2Proof.Machine
end

section
/-! The frame encoder (41_encoder.md): the frames of `Sound`, `RequestExtra`, `GeneralPurposeOutput` and `SetControllerGain`, the P
and D words, and what all seven frames have in common. -/

namespace Sys2Proof.Machine

theorem exec_requestExtra (hwVer fwVer udid : Bool) (s : State) :
    exec (.requestExtra hwVer fwVer udid) s = .next (deliver (.encoded (requestExtraFrame hwVer fwVer udid)) s) := rfl

theorem exec_generalPurposeOutput (dout pwr led : Bits4) (s : State) :
    exec (.generalPurposeOutput dout pwr led) s =
      .next (deliver (.encoded (generalPurposeOutputFrame dout pwr led)) s) := rfl

theorem exec_setControllerGain (uc : Bool) (p i d : Word) (s : State) :
    exec (.setControllerGain uc p i d) s = .next (deliver (.encoded (setControllerGainFrame uc p i d)) s) := rfl

/-! ### The Sound value (R146) -/

/-- `1 div (freq*amp)` is 1 exactly where the product is 1, for operands that are not zero (R146, D8). -/
theorem soundValue_eq {freq amp : Byte} (hf : freq ≠ 0) (ha : amp ≠ 0) :
    soundValue freq amp = if freq = 1 ∧ amp = 1 then 1 else 0 := by
  have hone : ∀ b : Byte, b = 1 ↔ b.toNat = 1 := fun b => by bv_omega
  have hpos : ∀ b : Byte, b ≠ 0 → 0 < b.toNat := fun b hb => by bv_omega
  have hprod : 0 < freq.toNat * amp.toNat := Nat.mul_pos (hpos freq hf) (hpos amp ha)
  rw [soundValue]
  split
  next h => rw [(hone freq).1 h.1, (hone amp).1 h.2]; rfl
  next h =>
    rw [hone, hone, ← mul_eq_one] at h
    rw [Nat.div_eq_of_lt (by omega)]
    rfl

/-- Settles O21. -/
theorem soundSendsNineBytes : Obligations.SoundSendsNineBytes := by
  intro freq amp duration s hf ha hd
  rcases soundFrame_cases freq amp duration with ⟨hzero, _⟩ | ⟨_, hframe⟩
  · exact absurd hzero (not_or.2 ⟨hf, not_or.2 ⟨ha, hd⟩⟩)
  · rw [exec_sound, hframe, deliverEncoder_ok, deliver, build_eq, soundValue_eq hf ha]
    split <;> simp [le16, grammar]

/-! ### Flag bytes (R150, R152) -/

/-- The three flags by their weights (D4). -/
theorem requestExtraFlags_eq (hwVer fwVer udid : Bool) :
    requestExtraFlags hwVer fwVer udid = BitVec.ofNat 8 (hwVer.toNat + 2 * fwVer.toNat + 128 * udid.toNat) := by
  cases hwVer <;> cases fwVer <;> cases udid <;> rfl

/-- R150: one payload byte, so it is its own checksum. -/
theorem requestExtraFrame_eq (hwVer fwVer udid : Bool) :
    requestExtraFrame hwVer fwVer udid =
      [0xAA, 0x55, 5, 9, 2, requestExtraFlags hwVer fwVer udid, requestExtraFlags hwVer fwVer udid] := by
  simp [requestExtraFrame, build_eq, grammar]

/-- Settles O24. -/
theorem requestExtraSendsOneFlagByte : Obligations.RequestExtraSendsOneFlagByte := by
  intro hwVer fwVer udid s
  rw [exec_requestExtra, requestExtraFrame_eq, requestExtraFlags_eq, deliver]

/-- A flag at position `k` has weight `2 ^ k` (R53). -/
theorem toNat_bitAt (b : Bool) {k : Nat} (hk : k < 8) : (bitAt b k).toNat = 2 ^ k * b.toNat := by
  have hlt : 2 ^ k < 256 := Nat.pow_lt_pow_right (by decide) hk
  cases b with
  | false => simp [bitAt]
  | true => simp [bitAt, Nat.shiftLeft_eq, hlt]

/-- A flag put above all bits of a byte adds its weight to the byte's value (R53). -/
theorem toNat_or_bitAt {x : Byte} {k : Nat} (b : Bool) (hk : k < 8) (hx : x.toNat < 2 ^ k) :
    (x ||| bitAt b k).toNat = x.toNat + 2 ^ k * b.toNat ∧ (x ||| bitAt b k).toNat < 2 ^ (k + 1) := by
  have hor : (x ||| bitAt b k).toNat = x.toNat + 2 ^ k * b.toNat := by
    rw [BitVec.toNat_or, toNat_bitAt b hk]
    rw [Nat.or_comm, Nat.add_comm, Nat.two_pow_add_eq_or_of_lt hx]
  refine ⟨hor, ?_⟩
  have hb : 2 ^ k * b.toNat ≤ 2 ^ k := mul_le_of_le_one_right (Nat.zero_le _) (Bool.toNat_le b)
  rw [hor, pow_succ]
  omega

theorem toNat_gpoByte0 (dout pwr : Bits4) :
    (gpoByte0 dout pwr).toNat = dout.b0.toNat + 2 * dout.b1.toNat + 4 * dout.b2.toNat + 8 * dout.b3.toNat +
      16 * pwr.b0.toNat + 32 * pwr.b1.toNat + 64 * pwr.b2.toNat + 128 * pwr.b3.toNat := by
  have h0 : (bitAt dout.b0 0).toNat < 2 ^ 1 := by
    rw [toNat_bitAt _ (by decide)]
    exact Nat.lt_of_le_of_lt (Nat.mul_le_mul_left _ (Bool.toNat_le _)) (by decide)
  obtain ⟨e1, h1⟩ := toNat_or_bitAt dout.b1 (by decide) h0
  obtain ⟨e2, h2⟩ := toNat_or_bitAt dout.b2 (by decide) h1
  obtain ⟨e3, h3⟩ := toNat_or_bitAt dout.b3 (by decide) h2
  obtain ⟨e4, h4⟩ := toNat_or_bitAt pwr.b0 (by decide) h3
  obtain ⟨e5, h5⟩ := toNat_or_bitAt pwr.b1 (by decide) h4
  obtain ⟨e6, h6⟩ := toNat_or_bitAt pwr.b2 (by decide) h5
  obtain ⟨e7, _⟩ := toNat_or_bitAt pwr.b3 (by decide) h6
  rw [gpoByte0, e7, e6, e5, e4, e3, e2, e1, toNat_bitAt _ (by decide)]
  omega

/-- The LEDs stand in `byte1` as the outputs do in `byte0`, with no rails above them (R93). -/
theorem gpoByte1_eq_gpoByte0 (led : Bits4) : gpoByte1 led = gpoByte0 led ⟨false, false, false, false⟩ := by
  simp [gpoByte1, gpoByte0, bitAt]

/-- R152: two payload bytes and their fold. -/
theorem generalPurposeOutputFrame_eq (dout pwr led : Bits4) :
    generalPurposeOutputFrame dout pwr led =
      [0xAA, 0x55, 5, 12, 2, gpoByte0 dout pwr, gpoByte1 led, gpoByte0 dout pwr ^^^ gpoByte1 led] := by
  simp [generalPurposeOutputFrame, build_eq, grammar]

/-- Settles O25: a byte is known by its value. -/
theorem generalPurposeOutputSendsTwoFlagBytes : Obligations.GeneralPurposeOutputSendsTwoFlagBytes := by
  intro d0 d1 d2 d3 p0 p1 p2 p3 l0 l1 l2 l3 s byte0 byte1 h0 h1
  have e0 : gpoByte0 ⟨d0, d1, d2, d3⟩ ⟨p0, p1, p2, p3⟩ = byte0 :=
    BitVec.eq_of_toNat_eq ((toNat_gpoByte0 _ _).trans h0.symm)
  have e1 : gpoByte1 ⟨l0, l1, l2, l3⟩ = byte1 := by
    apply BitVec.eq_of_toNat_eq
    rw [gpoByte1_eq_gpoByte0, toNat_gpoByte0, h1]
    simp
  rw [exec_generalPurposeOutput, generalPurposeOutputFrame_eq, e0, e1, deliver]

/-! ### The gain frame (R155) -/

/-- The four bytes of a word, the low one first, as truncation and shift (R52). -/
theorem le32_eq_setWidth (v : Word) :
    le32 v = [v.setWidth 8, (v >>> 8).setWidth 8, (v >>> 16).setWidth 8, (v >>> 24).setWidth 8] := by
  have hlow : v.setWidth 8 = v.extractLsb' 0 8 := BitVec.setWidth_eq_extractLsb' (by decide)
  have hbyte : ∀ k, (v >>> k).setWidth 8 = v.extractLsb' k 8 := fun _ => BitVec.setWidth_ushiftRight_eq_extractLsb
  rw [le32, hlow, hbyte, hbyte, hbyte]

/-- Settles O26. -/
theorem setControllerGainSendsThreeWords : Obligations.SetControllerGainSendsThreeWords := by
  intro uc p i d s
  have hpayload : push4 (push4 (push4 (push1 [] (userConfiguredByte uc)) (pWord p)) (iWord i)) (dWord d) =
      gainPayload (if uc then 1 else 0) (pWord p) (iWord i) (dWord d) := by
    simp only [push4, push1, le32_eq_setWidth, gainPayload, userConfiguredByte, List.cons_append, List.nil_append]
  rw [exec_setControllerGain, setControllerGainFrame, hpayload, build_eq, deliver, xorFold]
  rfl

/-- A gain word other than the fallback is the low word of the product (R156, R158, D9). -/
theorem toNat_mul_gainScale (x : Word) : (x * Config.gainScale).toNat = x.toNat * 1000 % 2 ^ 32 := by
  rw [BitVec.toNat_mul]
  rfl

theorem toNat_pWord (p : Word) : (pWord p).toNat = if p.toNat = 0 then 1000 else p.toNat * 1000 % 2 ^ 32 := by
  rw [pWord, ← toNat_mul_gainScale]
  by_cases hp : p = 0
  · simp [hp, Config.pFallback]
  · rw [if_neg hp, if_neg (by bv_omega)]

theorem toNat_dWord (d : Word) : (dWord d).toNat = if d.toNat = 0 then 2000 else d.toNat * 1000 % 2 ^ 32 := by
  rw [dWord, ← toNat_mul_gainScale]
  by_cases hd : d = 0
  · simp [hd, Config.dFallback]
  · rw [if_neg hd, if_neg (by bv_omega)]

/-- Settles O27: up to 4294967 the product fits the word. -/
theorem gainPAndDWordsScaleByThousand : Obligations.GainPAndDWordsScaleByThousand := by
  refine ⟨toNat_pWord, toNat_dWord, fun x hpos hle => ?_⟩
  rw [toNat_pWord, toNat_dWord, if_neg (by omega), if_neg (by omega), Nat.mod_eq_of_lt (by omega)]
  exact ⟨rfl, rfl⟩

/-! ### What all frames have in common (R84, R86, R99) -/

/-- A frame that an encoder operation delivers is its command's header, the command's number of payload bytes, and their fold
(R86, R140). -/
theorem encoded_eq_build {i : Instr} {c : Command} {s t : State} {F : List Byte} (hc : commandOf i = some c)
    (h : exec i s = .next t) (ht : t.result = .encoded F) :
    ∃ payload, F = build c payload ∧ payload.length + 6 = frameBytes c := by
  cases i with
  | checksum | decode => cases hc
  | sound freq amp duration =>
    cases hc
    rcases soundFrame_cases freq amp duration with ⟨_, hframe⟩ | ⟨_, hframe⟩
    all_goals
      rw [exec_sound, hframe] at h
      cases h
      cases ht
    exact ⟨_, rfl, rfl⟩
  | baseControl | soundSequence | requestExtra | generalPurposeOutput | setControllerGain | getControllerGain =>
    cases hc
    cases h
    cases ht
    exact ⟨_, rfl, rfl⟩

/-- The Length constant of every row counts Id, Size, checksum and payload, but `RequestExtra`'s, which counts one byte that is
not sent (R84, U8). -/
theorem grammar_length (c : Command) :
    (grammar c).length.toNat = if c = .requestExtra then frameBytes c - 2 else frameBytes c - 3 := by
  cases c <;> rfl

/-- Every row has Length = Size + 3 (R84). -/
theorem grammar_size (c : Command) : (grammar c).length.toNat = (grammar c).size.toNat + 3 := by
  cases c <;> rfl

/-- Settles O31: a frame built of its command's number of payload bytes agrees with its Length byte exactly where the row does. -/
theorem sixOfSevenFramesAreWellFormed : Obligations.SixOfSevenFramesAreWellFormed := by
  intro i c s t F hc h ht
  obtain ⟨payload, rfl, hlen⟩ := encoded_eq_build hc h ht
  refine ⟨(build_length c payload).trans hlen, ?_⟩
  have hL := grammar_length c
  have hS := grammar_size c
  have hbytes : 6 < frameBytes c := by cases c <;> decide
  simp only [wellFormedFrame, build_length, Bool.and_eq_true, decide_eq_true_eq]
  simp only [build_eq, Config.offLength, Config.offSize, Config.hdrLen, List.cons_append, byteAt_cons_succ,
    byteAt_cons_zero]
  split at hL
  next hextra => exact ⟨fun ⟨_, _, hlength⟩ => by omega, fun hother => absurd hextra hother⟩
  next hother => exact ⟨fun _ => hother, fun _ => by omega⟩

/-- Settles O32: bytes 0 to 4 are the row's header, and the seven Ids are distinct. -/
theorem frameHeaderNamesItsCommand : Obligations.FrameHeaderNamesItsCommand := by
  intro i c s t F hc h ht
  obtain ⟨payload, rfl, _⟩ := encoded_eq_build hc h ht
  have hheader : (build c payload).take 5 = frameHeader c := by rw [build_eq]; rfl
  refine ⟨by rw [hheader, commandOfHeader_frameHeader], (grammar c).id, by rw [build_eq]; rfl, ?_⟩
  cases c <;> rfl

end Sys2Proof.Machine
end

section
/-! The stream decoder (42_decoder.md): the remaining rules of a pass, the bound on the passes, the small steps, and the phases. -/

namespace Sys2Proof.Machine

/-! ### Where no marker is left (R186) -/

/-- Where the bytes left hold no marker, step 1 finds none. -/
theorem findMarker_eq_none {B : List Byte} {cur : Nat} (h : ∀ pre post, B.drop cur ≠ pre ++ 0xAA :: 0x55 :: post) :
    findMarker B cur = none := by
  cases hf : findMarker B cur with
  | none => rfl
  | some m =>
    obtain ⟨hle, hmark, _⟩ := findMarker_some hf
    obtain ⟨k, rfl⟩ := Nat.exists_eq_add_of_le hle
    rw [← markerAt_drop] at hmark
    obtain ⟨pre, post, hsplit, _⟩ := markerAt_iff_append.1 hmark
    exact absurd hsplit (h pre post)

/-- The residue where no marker is left, read off the bytes left (R186). -/
theorem trailingResidue_eq (s : Scan) :
    trailingResidue s = if (s.buf.drop s.cur).getLast? = some 0xAA then [0xAA] else [] := by
  have hlast : (s.buf.drop s.cur).getLast? = some 0xAA ↔
      s.cur < s.buf.length ∧ byteAt s.buf (s.buf.length - 1) = Config.marker0 := by
    rw [List.getLast?_drop]
    split
    next hle => simp [Nat.not_lt.2 hle]
    next hlt =>
      rw [List.getLast?_eq_getElem?, byteAt_eq _ _ (by omega), Option.some_inj]
      exact ⟨fun h => ⟨by omega, h⟩, fun h => h.2⟩
  simp only [trailingResidue, ← hlast]
  rfl

/-- Settles O36. -/
theorem decodeEndsWhereNoMarkerIsLeft : Obligations.DecodeEndsWhereNoMarkerIsLeft := by
  intro s hnone
  have hstop : scanPass s = .stop (trailingResidue s) := by simp only [scanPass, findMarker_eq_none hnone]
  rw [finishScan_of_stop hstop, trailingResidue_eq]
  split
  next hlast => simp only [scanResult, noCompleteFrameBit, incompleteFrameBit, hlast]; rfl
  next hlast => simp only [scanResult, noCompleteFrameBit, incompleteFrameBit, hlast]; rfl

/-! ### What the candidate at the cursor comes to (R188, R190, R194) -/

/-- Settles O37. -/
theorem decodeKeepsBareMarker : Obligations.DecodeKeepsBareMarker := by
  intro s hdrop
  have hstop : judgeCandidate s = .stop [0xAA, 0x55] := judgeCandidate_stop_iff.2 ⟨hdrop.symm, .inl (by decide)⟩
  rw [finishScan_of_stop ((scanPass_of_marker (markerAt_of_drop hdrop)).trans hstop)]
  rfl

/-- Settles O38: the Length byte is there and below 3, so no later test is made. -/
theorem decodeSkipsBadLength : Obligations.DecodeSkipsBadLength := by
  intro s L rest hdrop hL
  have hbyte : byteAt s.buf (s.cur + 2) = L := by rw [← byteAt_drop, hdrop]; rfl
  have hn : 3 ≤ s.buf.length - s.cur := by rw [← List.length_drop, hdrop]; simp
  have hmove : judgeCandidate s = .move (setCur (s.cur + 1) (raiseInScan .badLength s)) := by
    have hcases := judgeCandidate_cases s
    rw [hbyte] at hcases
    rcases hcases with ⟨_, _⟩ | ⟨_, _, hj⟩ | ⟨_, _, _⟩ | ⟨_, _, _⟩ | ⟨_, _, _⟩
    case inr.inl => exact hj
    all_goals omega
  rw [finishScan_of_move ((scanPass_of_marker (markerAt_of_drop hdrop)).trans hmove)]
  rfl

/-- The fields of a complete candidate at the cursor, as the tests read them (R189, R193, R194). -/
theorem candidate_fields {s : Scan} {id size c : Byte} {payload rest : List Byte} (hlen : payload.length ≤ 252)
    (h : s.buf.drop s.cur = [0xAA, 0x55, BitVec.ofNat 8 (payload.length + 3), id, size] ++ payload ++ c :: rest) :
    (byteAt s.buf (s.cur + 2)).toNat = payload.length + 3 ∧ byteAt s.buf (s.cur + 3) = id ∧
      slice s.buf (s.cur + 5) (s.cur + 2 + (payload.length + 3)) = payload ∧
      byteAt s.buf (s.cur + 2 + (payload.length + 3)) = c ∧ payload.length + 6 ≤ s.buf.length - s.cur := by
  refine ⟨?_, ?_, ?_, ?_, ?_⟩
  · rw [← byteAt_drop, h]
    simp
    omega
  · rw [← byteAt_drop, h]
    rfl
  · rw [show s.cur + 2 + (payload.length + 3) = s.cur + 5 + payload.length by omega, slice_eq_take_drop,
      ← List.drop_drop, h]
    simp
  · rw [show s.cur + 2 + (payload.length + 3) = s.cur + (5 + payload.length) by omega, ← byteAt_drop, h]
    simp [byteAt, List.getD_eq_getElem?_getD, Nat.add_comm 5]
  · rw [← List.length_drop, h]
    simp

/-- An inbound frame is a candidate whose trailing byte is the fold of its payload (R80, R81). -/
theorem inboundFrame_append (id size : Byte) (payload rest : List Byte) :
    inboundFrame id size payload ++ rest =
      [0xAA, 0x55, BitVec.ofNat 8 (payload.length + 3), id, size] ++ payload ++ xorFold payload :: rest := by
  simp [inboundFrame, Config.marker0, Config.marker1]

/-- Settles O40: the trailing byte is the fold of the payload, so the candidate is emitted and passed over whole. -/
theorem decodeAcceptsMatchingFrame : Obligations.DecodeAcceptsMatchingFrame := by
  intro s id size payload rest hlen hdrop
  rw [inboundFrame_append] at hdrop
  obtain ⟨hL, hid, hpayload, hlast, hn⟩ := candidate_fields hlen hdrop
  have hmove : judgeCandidate s = .move (setCur (s.cur + (payload.length + 6)) (emit ⟨id, payload⟩ s)) := by
    have hcases := judgeCandidate_cases s
    rw [hL, hid, hpayload, hlast] at hcases
    rcases hcases with ⟨_, _⟩ | ⟨_, _, _⟩ | ⟨_, _, _⟩ | ⟨_, _, hj, _⟩ | ⟨_, _, _, hdiffers⟩
    case inr.inr.inr.inl => rw [hj, show 3 + (payload.length + 3) = payload.length + 6 by omega]
    case inr.inr.inr.inr => exact absurd rfl hdiffers
    all_goals omega
  rw [finishScan_of_move ((scanPass_of_marker (markerAt_of_drop hdrop)).trans hmove)]
  rfl

/-! ### The passes and the small steps (R197, R208) -/

/-- Settles O42. -/
theorem cursorOnlyAdvances : Obligations.CursorOnlyAdvances :=
  fun _ _ => scanPass_move

/-- Settles O43: both bounds exceed the bytes left. -/
theorem loopEndsWithinItsPasses : Obligations.LoopEndsWithinItsPasses :=
  fun _ _ => scanLoop_eq_of_lt (by omega) (by omega)

/-- Small steps left before a call from the given scan ends: two for each byte left, to reach a marker and to judge it, and one
more where the cursor is not at a marker yet. -/
def smallStepBound (s : Scan) : Nat :=
  2 * (s.buf.length - s.cur) + if markerAt s.buf s.cur then 0 else 1

theorem smallStepBound_le (s : Scan) : smallStepBound s ≤ 2 * (s.buf.length - s.cur) + 1 := by
  rw [smallStepBound]
  split <;> omega

/-- A small step that goes on leaves the call as it is and comes nearer to its end (R208). -/
theorem scanStep_move {s s' : Scan} (h : scanStep s = .move s') :
    finishScan s = finishScan s' ∧ smallStepBound s' < smallStepBound s := by
  rw [scanStep] at h
  split at h
  next hmark =>
    obtain ⟨hbuf, hlt, hle⟩ := judgeCandidate_move h
    have hs' := smallStepBound_le s'
    rw [hbuf] at hs'
    have hs : smallStepBound s = 2 * (s.buf.length - s.cur) := by rw [smallStepBound, if_pos hmark, Nat.add_zero]
    exact ⟨finishScan_of_move ((scanPass_of_marker hmark).trans h), by omega⟩
  next hmark =>
    cases hf : findMarker s.buf s.cur with
    | none =>
      rw [hf] at h
      cases h
    | some m =>
      rw [hf] at h
      cases h
      obtain ⟨hle, hm, _⟩ := findMarker_some hf
      refine ⟨finishScan_setCur_marker hf, ?_⟩
      rw [smallStepBound, smallStepBound, setCur_buf, setCur_cur, if_pos hm, if_neg hmark]
      omega

/-- A small step that ends the call ends it as the loop does (R208). -/
theorem scanStep_stop {s : Scan} {r : List Byte} (h : scanStep s = .stop r) : scanResult (s, r) = finishScan s := by
  refine (finishScan_of_stop ?_).symm
  rw [scanStep] at h
  split at h
  next hmark => rw [scanPass_of_marker hmark, h]
  next =>
    rw [scanPass]
    cases hf : findMarker s.buf s.cur with
    | none => rwa [hf] at h
    | some m =>
      rw [hf] at h
      cases h

/-- Small steps beyond the bound come to the results of the loop. -/
theorem scanResult_scanSteps {fuel : Nat} {s : Scan} (h : smallStepBound s < fuel) :
    scanResult (scanSteps fuel s) = finishScan s := by
  induction fuel generalizing s with
  | zero => omega
  | succ fuel ih =>
    rw [scanSteps]
    cases hstep : scanStep s with
    | stop r => exact scanStep_stop hstep
    | move s' =>
      obtain ⟨hfinish, hbound⟩ := scanStep_move hstep
      rw [hfinish]
      exact ih (by omega)

/-- Settles O44. -/
theorem smallStepsAgreeWithLoop : Obligations.SmallStepsAgreeWithLoop := by
  intro s
  have hbound := smallStepBound_le s
  exact scanResult_scanSteps (by omega)

/-! ### Phases (R28) -/

/-- Settles O60. -/
theorem phaseFollowsCursorAndBuffer : Obligations.PhaseFollowsCursorAndBuffer := by
  intro s
  refine ⟨fun hno => ?_, fun hdrop => ?_, fun L body hdrop => ?_⟩
  · have hmark : markerAt s.buf s.cur = false := by
      rw [← Nat.add_zero s.cur, ← markerAt_drop, Bool.eq_false_iff]
      intro h
      obtain ⟨rest, hrest⟩ := eq_cons_of_markerAt_zero h
      exact hno rest hrest
    simp [scanPhase, hmark]
  · have hn : s.buf.length - s.cur = 2 := by rw [← List.length_drop, hdrop]; rfl
    simp [scanPhase, markerAt_of_drop hdrop, hn, Config.hdrLen]
  · have hn : s.buf.length - s.cur = body.length + 3 := by rw [← List.length_drop, hdrop]; rfl
    have hL : byteAt s.buf (s.cur + 2) = L := by rw [← byteAt_drop, hdrop]; rfl
    simp [scanPhase, markerAt_of_drop hdrop, hn, hL, Config.hdrLen, Config.offLength, Nat.add_comm 3]

/-- Settles O50: by the four shapes, the fourth being a marker whose body is still short. -/
theorem phaseIsReadOffTheResidue : Obligations.PhaseIsReadOffTheResidue := by
  intro r hshape
  match r with
  | [] => rfl
  | [a] =>
    simp [scanPhase, scanStart, markerAt, residuePhase]
  | [a, b] =>
    simp only [residueShape, Bool.and_eq_true, beq_iff_eq] at hshape
    obtain ⟨rfl, rfl⟩ := hshape
    rfl
  | a :: b :: L :: t =>
    obtain ⟨rfl, rfl⟩ : a = 0xAA ∧ b = 0x55 := by
      simp only [residueShape, Bool.and_eq_true, beq_iff_eq] at hshape
      exact ⟨hshape.1, hshape.2.1⟩
    have hshort := ((residueShape_body L t).1 hshape).2
    rw [(phaseFollowsCursorAndBuffer (scanStart [] _)).2.2 L t (by simp), if_pos hshort]
    simp [residuePhase]

/-! ### A whole call -/

/-- Settles O34: a call begins from the concatenation and nothing else. -/
theorem decodeSeesOnlyTheConcatenation : Obligations.DecodeSeesOnlyTheConcatenation := by
  intro newBytes residue newBytes' residue' h
  rw [decodeStream, decodeStream, scanStart, scanStart, h]

/-- Settles O53: the four bits of the concatenation, lowest first, and the two status codes. -/
theorem conditionCodesFollowTheResults : Obligations.ConditionCodesFollowTheResults := by
  refine ⟨fun newBytes r => ?_, fun _ => rfl, rfl⟩
  obtain ⟨hno, hinc⟩ := decodeStream_bits newBytes r
  simp only [DecodeResult.cond, DecodeResult.reports, BitVec.getLsbD_append, hno, hinc]
  simp

/-- Settles O48: the pass that ended the first call ends the second at once. -/
theorem returnedResidueIsFixed : Obligations.ReturnedResidueIsFixed := by
  intro newBytes r
  obtain ⟨t, (hstop : scanPass t = .stop (decodeStream newBytes r).newResidue)⟩ :=
    finishScan_ends (scanStart newBytes r)
  exact finishScan_of_stop (scanPass_residue hstop)

end Sys2Proof.Machine
end

section
/-! The stream decoder (42_decoder.md section 6): the results of a call are the sum of the results of its parts. From it, that
chunk boundaries make no difference (R200), the bound on the output (R204), and what single frames come to (R162, R205, R279). -/

namespace Sys2Proof.Machine

/-! ### Adding up results -/

/-- The results of a call, followed by those of what is decoded after it: frames and counts add up, the residue is the last. -/
def DecodeResult.followedBy (d e : DecodeResult) : DecodeResult :=
  { frames := d.frames ++ e.frames
    newResidue := e.newResidue
    mismatches := d.mismatches + e.mismatches
    badLengths := d.badLengths + e.badLengths
    noCompleteFrame := d.noCompleteFrame && e.noCompleteFrame
    incompleteFrame := e.incompleteFrame }

/-- The results of a call that only keeps the given bytes. -/
def keptResult (r : List Byte) : DecodeResult :=
  ⟨[], r, 0, 0, true, !r.isEmpty⟩

/-- The results of one emitted frame, of one bad length, and of one mismatch, with nothing kept. -/
def frameResult (f : FeedbackFrame) : DecodeResult := ⟨[f], [], 0, 0, false, false⟩
def badLengthResult : DecodeResult := ⟨[], [], 0, 1, true, false⟩
def mismatchResult : DecodeResult := ⟨[], [], 1, 0, true, false⟩

/-- The results a scan has gathered so far, with nothing kept. -/
def soFar (s : Scan) : DecodeResult :=
  scanResult (s, [])

section Sums

variable (d e e' : DecodeResult)

theorem followedBy_assoc : (d.followedBy e).followedBy e' = d.followedBy (e.followedBy e') := by
  simp [DecodeResult.followedBy, Nat.add_assoc, Bool.and_assoc]

/-- Bytes that are only kept leave the results to what follows. -/
@[simp] theorem keptResult_followedBy (r : List Byte) : (keptResult r).followedBy e = e := by
  simp [DecodeResult.followedBy, keptResult]

@[simp] theorem followedBy_frames : (d.followedBy e).frames = d.frames ++ e.frames := rfl
@[simp] theorem followedBy_newResidue : (d.followedBy e).newResidue = e.newResidue := rfl
@[simp] theorem followedBy_mismatches : (d.followedBy e).mismatches = d.mismatches + e.mismatches := rfl
@[simp] theorem followedBy_badLengths : (d.followedBy e).badLengths = d.badLengths + e.badLengths := rfl

@[simp] theorem keptResult_newResidue (r : List Byte) : (keptResult r).newResidue = r := rfl

theorem soFar_scanStart (B residue : List Byte) : soFar (scanStart B residue) = keptResult [] := rfl

theorem soFar_setCur (m : Nat) (s : Scan) : soFar (setCur m s) = soFar s := rfl

/-- What a scan has gathered grows by the event it records, wherever its cursor goes. -/
theorem soFar_frame (s : Scan) (m : Nat) (f : FeedbackFrame) :
    soFar { s with cur := m, frames := s.frames ++ [f] } = (soFar s).followedBy (frameResult f) := by
  simp [soFar, scanResult, DecodeResult.followedBy, frameResult, noCompleteFrameBit, incompleteFrameBit]

theorem soFar_badLength (s : Scan) (m : Nat) :
    soFar { s with cur := m, badLengths := s.badLengths + 1 } = (soFar s).followedBy badLengthResult := by
  simp [soFar, scanResult, DecodeResult.followedBy, badLengthResult, noCompleteFrameBit, incompleteFrameBit]

theorem soFar_mismatch (s : Scan) (m : Nat) :
    soFar { s with cur := m, mismatches := s.mismatches + 1 } = (soFar s).followedBy mismatchResult := by
  simp [soFar, scanResult, DecodeResult.followedBy, mismatchResult, noCompleteFrameBit, incompleteFrameBit]

theorem frameResult_followedBy (f : FeedbackFrame) :
    (frameResult f).followedBy e = { e with frames := f :: e.frames, noCompleteFrame := false } := by
  simp [DecodeResult.followedBy, frameResult]

theorem mismatchResult_followedBy : mismatchResult.followedBy e = { e with mismatches := e.mismatches + 1 } := by
  simp [DecodeResult.followedBy, mismatchResult, Nat.add_comm]

/-- A pass that ends the call adds the kept bytes to what the scan has gathered. -/
theorem scanResult_eq_followedBy (s : Scan) (r : List Byte) : scanResult (s, r) = (soFar s).followedBy (keptResult r) := by
  simp [scanResult, soFar, DecodeResult.followedBy, keptResult, noCompleteFrameBit, incompleteFrameBit]

end Sums

/-! ### What stands at the front of the bytes left -/

/-- The ways a byte sequence can begin, as the tests of R239 tell them apart. -/
inductive Front : List Byte → Prop where
  | empty : Front []
  | single (x : Byte) : Front [x]
  | noise (x y : Byte) (t : List Byte) (h : ¬(x = 0xAA ∧ y = 0x55)) : Front (x :: y :: t)
  | bareMarker : Front [0xAA, 0x55]
  | badLength (L : Byte) (t : List Byte) (hL : L.toNat < 3) : Front (0xAA :: 0x55 :: L :: t)
  | incomplete (L : Byte) (body : List Byte) (hL : 3 ≤ L.toNat) (hbody : body.length < L.toNat) :
      Front (0xAA :: 0x55 :: L :: body)
  | complete (id size c : Byte) (payload t : List Byte) (hlen : payload.length ≤ 252) :
      Front ([0xAA, 0x55, BitVec.ofNat 8 (payload.length + 3), id, size] ++ payload ++ c :: t)

/-- A body with all the bytes its Length announces splits into Id, Size, payload, trailing byte and the rest (R80, R81). -/
theorem complete_of_length {L : Byte} {body : List Byte} (hL : 3 ≤ L.toNat) (hbody : L.toNat ≤ body.length) :
    Front (0xAA :: 0x55 :: L :: body) := by
  rcases body with _ | ⟨id, _ | ⟨size, body⟩⟩
  case cons.cons =>
    have hlt := L.isLt
    simp only [List.length_cons] at hbody
    have htake : (body.take (L.toNat - 3)).length = L.toNat - 3 := List.length_take_of_le (by omega)
    have hfront := Front.complete id size body[L.toNat - 3] (body.take (L.toNat - 3)) (body.drop (L.toNat - 3 + 1))
      (by rw [htake]; omega)
    rwa [htake, Nat.sub_add_cancel hL, BitVec.ofNat_toNat, BitVec.setWidth_eq, List.append_assoc,
      ← List.drop_eq_getElem_cons, List.take_append_drop] at hfront
  all_goals
    simp at hbody
    omega

theorem front (B : List Byte) : Front B := by
  match B with
  | [] => exact .empty
  | [x] => exact .single x
  | x :: y :: t =>
    by_cases h : x = 0xAA ∧ y = 0x55
    · obtain ⟨rfl, rfl⟩ := h
      cases t with
      | nil => exact .bareMarker
      | cons L body =>
        by_cases hL : L.toNat < 3
        · exact .badLength L body hL
        · by_cases hbody : body.length < L.toNat
          · exact .incomplete L body (by omega) hbody
          · exact complete_of_length (by omega) (by omega)
    · exact .noise x y t h

/-! ### The results depend on the bytes left and add to what was gathered -/

/-- Two bytes that are no marker: the first is dropped (R185). -/
theorem finishScan_of_noise {s : Scan} {x y : Byte} {t : List Byte} (hdrop : s.buf.drop s.cur = x :: y :: t)
    (h : ¬(x = 0xAA ∧ y = 0x55)) : finishScan s = finishScan (setCur (s.cur + 1) s) := by
  have htail : s.buf.drop (s.cur + 1) = y :: t := by rw [← List.drop_drop, hdrop]; rfl
  have hfind : findMarker s.buf s.cur = findMarker s.buf (s.cur + 1) := by
    rw [findMarker, hdrop, markerOffset, if_neg (by exact h), findMarker, htail, Option.map_map]
    congr 1
    funext k
    simp only [Function.comp_apply]
    omega
  have hpass : scanPass s = scanPass (setCur (s.cur + 1) s) := by
    have htrail : trailingResidue s = trailingResidue (setCur (s.cur + 1) s) := by
      rw [trailingResidue_eq, trailingResidue_eq, setCur_buf, setCur_cur, hdrop, htail, List.getLast?_cons_cons]
    rw [scanPass, scanPass, setCur_buf, setCur_cur, ← hfind, htrail]
    rfl
  cases hp : scanPass s with
  | stop r =>
    rw [finishScan_of_stop hp, finishScan_of_stop (hpass.symm.trans hp)]
    rfl
  | move s' => rw [finishScan_of_move hp, finishScan_of_move (hpass.symm.trans hp)]

/-- Past the bytes used, the bytes left are the rest. -/
theorem drop_add_of_drop_eq {B used rest : List Byte} {cur : Nat} (h : B.drop cur = used ++ rest) :
    B.drop (cur + used.length) = rest := by
  rw [← List.drop_drop, h, List.drop_left]

/-- At most one byte left is no marker: it is kept if it is `AA` (R186). -/
theorem finishScan_of_short {s : Scan} (h : (s.buf.drop s.cur).length ≤ 1) :
    finishScan s = (soFar s).followedBy
      (keptResult (if (s.buf.drop s.cur).getLast? = some 0xAA then [0xAA] else [])) := by
  have hnone : ∀ pre post, s.buf.drop s.cur ≠ pre ++ 0xAA :: 0x55 :: post := fun pre post hsplit => by
    rw [hsplit] at h
    simp at h
    omega
  have hstop : scanPass s = .stop (trailingResidue s) := by simp only [scanPass, findMarker_eq_none hnone]
  rw [finishScan_of_stop hstop, scanResult_eq_followedBy, trailingResidue_eq]

@[simp] theorem inboundFrame_length (id size : Byte) (payload : List Byte) :
    (inboundFrame id size payload).length = payload.length + 6 := by
  simp [inboundFrame]

/-- What the bytes left add to the results is the same from every scan. -/
theorem exists_finishScan_eq_followedBy (B : List Byte) :
    ∃ e, ∀ s : Scan, s.buf.drop s.cur = B → finishScan s = (soFar s).followedBy e := by
  induction hn : B.length using Nat.strong_induction_on generalizing B with
  | _ n ih =>
  subst hn
  cases front B with
  | empty => exact ⟨_, fun s hdrop => hdrop ▸ finishScan_of_short (by simp [hdrop])⟩
  | single x => exact ⟨_, fun s hdrop => hdrop ▸ finishScan_of_short (by simp [hdrop])⟩
  | noise x y t h =>
    obtain ⟨e, he⟩ := ih _ (by simp) (y :: t) rfl
    refine ⟨e, fun s hdrop => ?_⟩
    rw [finishScan_of_noise hdrop h, he _ (drop_add_of_drop_eq (used := [x]) hdrop), soFar_setCur]
  | bareMarker =>
    refine ⟨keptResult [0xAA, 0x55], fun s hdrop => ?_⟩
    rw [← scanResult_eq_followedBy, decodeKeepsBareMarker s hdrop]
    rfl
  | badLength L t hL =>
    obtain ⟨e, he⟩ := ih _ (by simp) (0x55 :: L :: t) rfl
    refine ⟨badLengthResult.followedBy e, fun s hdrop => ?_⟩
    rw [decodeSkipsBadLength s L t hdrop hL, he _ (drop_add_of_drop_eq (used := [0xAA]) hdrop), soFar_badLength,
      followedBy_assoc]
  | incomplete L body hL hbody =>
    refine ⟨keptResult (0xAA :: 0x55 :: L :: body), fun s hdrop => ?_⟩
    rw [← scanResult_eq_followedBy, decodeKeepsIncompleteBody s L body hdrop hL hbody]
    rfl
  | complete id size c payload t hlen =>
    by_cases hc : c = xorFold payload
    · subst hc
      obtain ⟨e, he⟩ := ih _ (by simp; omega) t rfl
      refine ⟨(frameResult ⟨id, payload⟩).followedBy e, fun s hdrop => ?_⟩
      rw [← inboundFrame_append] at hdrop
      have hrest := drop_add_of_drop_eq hdrop
      rw [inboundFrame_length] at hrest
      rw [decodeAcceptsMatchingFrame s id size payload t hlen hdrop, he _ hrest, soFar_frame, followedBy_assoc]
    · obtain ⟨e, he⟩ := ih _ (by simp)
        ([0x55, BitVec.ofNat 8 (payload.length + 3), id, size] ++ payload ++ c :: t) rfl
      refine ⟨mismatchResult.followedBy e, fun s hdrop => ?_⟩
      rw [decodeSkipsMismatchByOneByte s id size c payload t hlen hc hdrop,
        he _ (drop_add_of_drop_eq (used := [0xAA]) hdrop), soFar_mismatch, followedBy_assoc]

/-- A call from any scan adds to what was gathered the results of decoding the bytes left. -/
theorem finishScan_eq_followedBy (s : Scan) :
    finishScan s = (soFar s).followedBy (decodeStream (s.buf.drop s.cur) []) := by
  obtain ⟨e, he⟩ := exists_finishScan_eq_followedBy (s.buf.drop s.cur)
  have hdecode : decodeStream (s.buf.drop s.cur) [] = e := by
    rw [decodeStream, he (scanStart _ []) rfl, soFar_scanStart, keptResult_followedBy]
  rw [he s rfl, hdecode]

/-! ### The rules of a pass, of the bytes decoded alone -/

/-- A call that comes to what it comes to in another scan gives what was gathered there, and then the bytes left. -/
theorem decodeStream_of_finishScan {B rest : List Byte} {s : Scan} {d : DecodeResult}
    (h : finishScan (scanStart B []) = finishScan s) (hrest : s.buf.drop s.cur = rest) (hd : soFar s = d) :
    decodeStream B [] = d.followedBy (decodeStream rest []) := by
  rw [decodeStream, h, finishScan_eq_followedBy, hrest, hd]

theorem decodeStream_nil : decodeStream [] [] = keptResult [] := rfl

theorem decodeStream_single (x : Byte) : decodeStream [x] [] = keptResult (if x = 0xAA then [0xAA] else []) := by
  have h : finishScan (scanStart [x] []) = _ := finishScan_of_short (by simp)
  rw [decodeStream, h, soFar_scanStart, keptResult_followedBy]
  simp

theorem decodeStream_noise {x y : Byte} (t : List Byte) (h : ¬(x = 0xAA ∧ y = 0x55)) :
    decodeStream (x :: y :: t) [] = decodeStream (y :: t) [] :=
  (decodeStream_of_finishScan (finishScan_of_noise rfl h) rfl rfl).trans (keptResult_followedBy _ [])

/-- A byte other than `AA` begins no marker and is dropped. -/
theorem decodeStream_cons_of_ne {x : Byte} (h : x ≠ 0xAA) (t : List Byte) :
    decodeStream (x :: t) [] = decodeStream t [] := by
  cases t with
  | nil => rw [decodeStream_single, if_neg h, decodeStream_nil]
  | cons y t => exact decodeStream_noise t fun hmarker => h hmarker.1

theorem decodeStream_badLength {L : Byte} (t : List Byte) (hL : L.toNat < 3) :
    decodeStream (0xAA :: 0x55 :: L :: t) [] = badLengthResult.followedBy (decodeStream (0x55 :: L :: t) []) :=
  decodeStream_of_finishScan (decodeSkipsBadLength (scanStart _ []) L t rfl hL) rfl rfl

theorem decodeStream_incomplete {L : Byte} {body : List Byte} (hL : 3 ≤ L.toNat) (hbody : body.length < L.toNat) :
    decodeStream (0xAA :: 0x55 :: L :: body) [] = keptResult (0xAA :: 0x55 :: L :: body) :=
  decodeKeepsIncompleteBody (scanStart _ []) L body rfl hL hbody

theorem decodeStream_frame (id size : Byte) {payload : List Byte} (t : List Byte) (hlen : payload.length ≤ 252) :
    decodeStream (inboundFrame id size payload ++ t) [] = (frameResult ⟨id, payload⟩).followedBy (decodeStream t []) := by
  refine decodeStream_of_finishScan (decodeAcceptsMatchingFrame (scanStart _ []) id size payload t hlen rfl) ?_ rfl
  rw [← inboundFrame_length id size]
  exact drop_add_of_drop_eq rfl

theorem decodeStream_mismatch (id size : Byte) {c : Byte} {payload : List Byte} (t : List Byte)
    (hlen : payload.length ≤ 252) (hc : c ≠ xorFold payload) :
    decodeStream ([0xAA, 0x55, BitVec.ofNat 8 (payload.length + 3), id, size] ++ payload ++ c :: t) [] =
      mismatchResult.followedBy
        (decodeStream ([0x55, BitVec.ofNat 8 (payload.length + 3), id, size] ++ payload ++ c :: t) []) :=
  decodeStream_of_finishScan (decodeSkipsMismatchByOneByte (scanStart _ []) id size c payload t hlen hc rfl) rfl rfl

/-! ### Chunks (R200, R202) and the bound on the output (R204) -/

/-- What results take of the input: six bytes for each frame, one for each rejected marker, and what is kept (R204). -/
def bytesTaken (d : DecodeResult) : Nat :=
  6 * d.frames.length + d.mismatches + d.badLengths + d.newResidue.length

theorem bytesTaken_followedBy {d : DecodeResult} (hd : d.newResidue = []) (e : DecodeResult) :
    bytesTaken (d.followedBy e) = bytesTaken d + bytesTaken e := by
  simp [bytesTaken, hd]
  omega

/-- A byte sequence is kept whole, or some bytes at its front are used up, whatever follows. -/
theorem decodeStream_kept_or_used (B : List Byte) :
    decodeStream B [] = keptResult B ∨
    ∃ used t d, B = used ++ t ∧ used ≠ [] ∧ d.newResidue = [] ∧ bytesTaken d ≤ used.length ∧
      ∀ b, decodeStream (B ++ b) [] = d.followedBy (decodeStream (t ++ b) []) := by
  cases front B with
  | empty => exact .inl decodeStream_nil
  | single x =>
    by_cases hx : x = 0xAA
    · subst hx
      exact .inl (decodeStream_single 0xAA)
    · exact .inr ⟨[x], [], keptResult [], rfl, by simp, rfl, by simp [bytesTaken, keptResult],
        fun b => by simpa using decodeStream_cons_of_ne hx b⟩
  | noise x y t h =>
    exact .inr ⟨[x], y :: t, keptResult [], rfl, by simp, rfl, by simp [bytesTaken, keptResult],
      fun b => by simpa using decodeStream_noise (t ++ b) h⟩
  | bareMarker => exact .inl (decodeKeepsBareMarker (scanStart _ []) rfl)
  | badLength L t hL =>
    exact .inr ⟨[0xAA], 0x55 :: L :: t, badLengthResult, rfl, by simp, rfl, le_rfl,
      fun b => decodeStream_badLength (t ++ b) hL⟩
  | incomplete L body hL hbody => exact .inl (decodeStream_incomplete hL hbody)
  | complete id size c payload t hlen =>
    by_cases hc : c = xorFold payload
    · subst hc
      refine .inr ⟨inboundFrame id size payload, t, frameResult ⟨id, payload⟩, (inboundFrame_append ..).symm,
        by simp [inboundFrame], rfl, by simp [bytesTaken, frameResult], fun b => ?_⟩
      rw [← inboundFrame_append, List.append_assoc, decodeStream_frame id size _ hlen]
    · refine .inr ⟨[0xAA], _, mismatchResult, rfl, by simp, rfl, le_rfl, fun b => ?_⟩
      simpa using decodeStream_mismatch id size (t ++ b) hlen hc

/-- Decoding continues from the residue as if the bytes had come at once (R200). -/
theorem decodeStream_append (B b : List Byte) :
    decodeStream (B ++ b) [] =
      (decodeStream B []).followedBy (decodeStream ((decodeStream B []).newResidue ++ b) []) := by
  induction hn : B.length using Nat.strong_induction_on generalizing B with
  | _ n ih =>
  subst hn
  rcases decodeStream_kept_or_used B with hkept | ⟨used, t, d, rfl, hused, _, _, hall⟩
  · rw [hkept, keptResult_newResidue, keptResult_followedBy]
  · have hwhole : decodeStream (used ++ t) [] = d.followedBy (decodeStream t []) := by simpa using hall []
    have hshorter : t.length < (used ++ t).length := by
      rw [List.length_append]
      exact Nat.lt_add_of_pos_left (List.length_pos_iff.2 hused)
    rw [hall, ih _ hshorter t rfl, hwhole, followedBy_newResidue, followedBy_assoc]

/-- The results fit in the bytes decoded (R204). -/
theorem bytesTaken_decodeStream_le (B : List Byte) : bytesTaken (decodeStream B []) ≤ B.length := by
  induction hn : B.length using Nat.strong_induction_on generalizing B with
  | _ n ih =>
  subst hn
  rcases decodeStream_kept_or_used B with hkept | ⟨used, t, d, rfl, hused, hd, htaken, hall⟩
  · rw [hkept]
    simp [bytesTaken, keptResult]
  · have hwhole : decodeStream (used ++ t) [] = d.followedBy (decodeStream t []) := by simpa using hall []
    have hpos := List.length_pos_iff.2 hused
    have ht := ih t.length (by rw [List.length_append]; omega) t rfl
    rw [hwhole, bytesTaken_followedBy hd, List.length_append]
    omega

/-- A residue and new bytes are decoded as their concatenation (R180). -/
theorem decodeStream_eq_append (newBytes r : List Byte) : decodeStream newBytes r = decodeStream (r ++ newBytes) [] :=
  decodeSeesOnlyTheConcatenation _ _ _ _ rfl

/-- Two chunks, the residue threaded, add up to one call on both (R200). -/
theorem decodeStream_chunks (r a b : List Byte) :
    decodeStream (a ++ b) r = (decodeStream a r).followedBy (decodeStream b (decodeStream a r).newResidue) := by
  rw [decodeStream_eq_append, ← List.append_assoc, decodeStream_append, ← decodeStream_eq_append, ← decodeStream_eq_append]

/-- Settles O45. -/
theorem decodeIsChunkBoundaryIndependent : Obligations.DecodeIsChunkBoundaryIndependent := by
  intro r a b
  rw [decodeStream_chunks]
  exact ⟨rfl, rfl, rfl, rfl⟩

/-- Settles O46: by the number of chunks, two at a time. -/
theorem decodeOfChunksIsDecodeOfWhole : Obligations.DecodeOfChunksIsDecodeOfWhole := by
  intro c cs
  induction cs generalizing c with
  | nil => simp [decodeChunks]
  | cons c' cs ih =>
    intro r
    obtain ⟨hframes, hres, hmis, hbad⟩ := ih c' (decodeStream c r).newResidue
    rw [List.flatten_cons, decodeStream_chunks, decodeChunks]
    simp only [List.flatMap_cons, List.map_cons, List.sum_cons, hframes, hres, hmis, hbad, followedBy_frames,
      followedBy_newResidue, followedBy_mismatches, followedBy_badLengths, and_self]

/-- Settles O51. -/
theorem decodeOutputIsBoundedByInput : Obligations.DecodeOutputIsBoundedByInput := by
  intro newBytes r
  rw [decodeStream_eq_append]
  exact bytesTaken_decodeStream_le (r ++ newBytes)

/-! ### Single frames (R162, R205, R279) -/

/-- Every frame but `RequestExtra`'s is an inbound frame: its Length byte counts the payload that was pushed (R84). -/
theorem build_eq_inboundFrame {c : Command} {payload : List Byte} (hc : c ≠ .requestExtra)
    (hlen : payload.length + 6 = frameBytes c) : build c payload = inboundFrame (grammar c).id (grammar c).size payload := by
  have hL : (grammar c).length = BitVec.ofNat 8 (payload.length + 3) := by
    apply BitVec.eq_of_toNat_eq
    have hlt := (grammar c).length.isLt
    have hlength := grammar_length c
    rw [if_neg hc] at hlength
    rw [BitVec.toNat_ofNat]
    omega
  rw [build_eq, hL]
  rfl

/-- Settles O54: six frames are inbound frames; `RequestExtra`'s announces one byte more than there is. -/
theorem encodedFramesDecodeToThemselves : Obligations.EncodedFramesDecodeToThemselves := by
  intro i c s t F hcmd h ht
  obtain ⟨payload, rfl, hlen⟩ := encoded_eq_build hcmd h ht
  constructor
  · intro hc
    have hbytes : frameBytes c ≤ 19 := by cases c <;> decide
    have hpayload : ((build c payload).drop 5).dropLast = payload := by simp [build_eq]
    rw [hpayload, build_eq_inboundFrame hc hlen, ← List.append_nil (inboundFrame _ _ _),
      decodeStream_frame _ _ _ (by omega), decodeStream_nil]
    rfl
  · rintro rfl
    rw [build_eq]
    have hone : payload.length = 1 := Nat.add_right_cancel hlen
    exact decodeStream_incomplete (by decide) (by simp [hone, grammar])

/-- The flag byte sets none of the bits 2 to 6, so it is not `AA` (R92). -/
theorem requestExtraFlags_ne_marker (hwVer fwVer udid : Bool) : requestExtraFlags hwVer fwVer udid ≠ 0xAA := by
  intro h
  have hbit := getLsbD_requestExtraFlags hwVer fwVer udid 3
  rw [h] at hbit
  simp at hbit

/-- Settles O55: the byte after the frame is taken as the trailing byte of two flag bytes, whose fold is 0. After a mismatch, no
byte of the frame is `AA`. -/
theorem requestExtraTakesTheNextByte : Obligations.RequestExtraTakesTheNextByte := by
  intro hwVer fwVer udid x rest
  have hne := requestExtraFlags_ne_marker hwVer fwVer udid
  rw [requestExtraFrame_eq]
  generalize requestExtraFlags hwVer fwVer udid = f at hne ⊢
  have hfold : xorFold [f, f] = 0 := by simp
  constructor
  · rintro rfl
    have hframe := decodeStream_frame 9 2 rest (payload := [f, f]) (by simp)
    rw [inboundFrame_append, hfold, frameResult_followedBy] at hframe
    exact hframe
  · intro hx
    have hmismatch := decodeStream_mismatch 9 2 (c := x) (payload := [f, f]) rest (by simp) (by rwa [hfold])
    have hskip : decodeStream ([0x55, 5, 9, 2, f, f] ++ x :: rest) [] = decodeStream (x :: rest) [] := by
      simp only [List.cons_append, List.nil_append]
      iterate 4 rw [decodeStream_cons_of_ne (by decide)]
      rw [decodeStream_cons_of_ne hne, decodeStream_cons_of_ne hne]
    rw [← mismatchResult_followedBy, ← hskip]
    exact hmismatch

/-- One changed byte changes the fold of a payload (R125). -/
theorem xorFold_ne_of_changed {x y : Byte} (p q : List Byte) (h : x ≠ y) : xorFold (p ++ x :: q) ≠ xorFold (p ++ y :: q) := by
  simp [BitVec.xor_left_inj, BitVec.xor_right_inj, h]

/-- Settles O56: the corrupted frame is a complete candidate that does not match; the bytes before the next marker are noise. -/
theorem corruptedPayloadByteCostsOneFrame : Obligations.CorruptedPayloadByteCostsOneFrame := by
  intro id size x y p q bad rest hlen hxy hbad
  have hcorrupt : (p ++ y :: q).length = (p ++ x :: q).length := by simp
  have hrescan : decodeStream (0xAA :: bad ++ rest) [] = mismatchResult.followedBy (decodeStream (bad ++ rest) []) := by
    have hmismatch := decodeStream_mismatch id size rest (hcorrupt ▸ hlen) (xorFold_ne_of_changed p q hxy)
    rw [hcorrupt] at hmismatch
    simpa [hbad] using hmismatch
  rw [← mismatchResult_followedBy, hrescan]
  refine ⟨rfl, ?_⟩
  rintro rest' rfl hfirst
  have hnoise : decodeStream (bad ++ 0xAA :: 0x55 :: rest') [] = decodeStream (0xAA :: 0x55 :: rest') [] :=
    (decodeStream_of_finishScan (decodeDropsNoiseBeforeMarker (scanStart _ []) bad rest' rfl hfirst)
      (drop_add_of_drop_eq rfl) rfl).trans (keptResult_followedBy _ [])
  rw [hnoise, mismatchResult_followedBy]

end Sys2Proof.Machine
end

section
/-! The I word (41_encoder.md R157, R159): binary32 patterns read as numbers, the ordered comparison with the ends of the window, and
the product rounded to 24 bits. -/

namespace Sys2Proof.Machine

/-! ### Reading a pattern by its number (R159) -/

theorem toNat_biased (x : Word) : (x.extractLsb' 23 8).toNat = x.toNat / 2 ^ 23 % 2 ^ 8 := by
  rw [BitVec.extractLsb'_toNat, Nat.shiftRight_eq_div_pow]

theorem toNat_fraction (x : Word) : (x.extractLsb' 0 23).toNat = x.toNat % 2 ^ 23 := by
  rw [BitVec.extractLsb'_toNat, Nat.shiftRight_zero]

/-- The sign bit, as the upper half of the patterns. -/
theorem sign_eq (x : Word) : x.getLsbD 31 = decide (2 ^ 31 ≤ x.toNat) := by
  rw [← BitVec.msb_eq_decide (x := x)]
  rfl

/-- The ways a pattern is read, by its number: the sign is the upper half, the rest is ordered as the exponent and fraction
are. -/
theorem f32Value_toNat_cases (x : Word) :
    (x.toNat % 2 ^ 31 = 0x7F800000 ∧ f32Value x = .infinite (decide (2 ^ 31 ≤ x.toNat))) ∨
    (0x7F800000 < x.toNat % 2 ^ 31 ∧ f32Value x = .nan) ∨
    (x.toNat % 2 ^ 31 < 2 ^ 23 ∧ f32Value x = .finite (decide (2 ^ 31 ≤ x.toNat)) (x.toNat % 2 ^ 31) (-149)) ∨
    (2 ^ 23 ≤ x.toNat % 2 ^ 31 ∧ x.toNat % 2 ^ 31 < 0x7F800000 ∧ f32Value x =
      .finite (decide (2 ^ 31 ≤ x.toNat)) (2 ^ 23 + x.toNat % 2 ^ 23) ((x.toNat % 2 ^ 31 / 2 ^ 23 : Nat) - 150)) := by
  have hlt := x.isLt
  have hbiased : x.toNat / 2 ^ 23 % 2 ^ 8 = x.toNat % 2 ^ 31 / 2 ^ 23 := by omega
  have hcases := f32Value_cases x
  rw [toNat_biased, toNat_fraction, sign_eq, hbiased] at hcases
  rcases hcases with ⟨hb, hf, h⟩ | ⟨hb, hf, h⟩ | ⟨hb, h⟩ | ⟨hb, hb0, h⟩
  · exact .inl ⟨by omega, h⟩
  · exact .inr (.inl ⟨by omega, h⟩)
  · refine .inr (.inr (.inl ⟨by omega, ?_⟩))
    rw [h, show x.toNat % 2 ^ 31 = x.toNat % 2 ^ 23 by omega]
  · exact .inr (.inr (.inr ⟨by omega, by omega, h⟩))

/-! ### Comparing with the ends of the window (R157) -/

theorem scaledLt_same_exp (a b e : Int) : scaledLt a e b e = decide (a < b) := by
  simp [scaledLt]

/-- A number is below one of a higher exponent whose significand is more than half as large. -/
theorem scaledLt_of_exp_lt {a ea b eb : Int} (he : ea < eb) (hb : 0 ≤ b) (h : a < 2 * b) : scaledLt a ea b eb = true := by
  obtain ⟨n, hn⟩ : ∃ n : Nat, (eb - ea).toNat = n + 1 := ⟨(eb - ea).toNat - 1, by omega⟩
  have hpow : (1 : Int) ≤ 2 ^ n := one_le_pow₀ (by decide)
  simp only [scaledLt, min_eq_left he.le, sub_self, Int.toNat_zero, pow_zero, mul_one, hn, pow_succ, decide_eq_true_eq]
  nlinarith

/-- A number is not below one of a lower exponent whose significand is at most twice as large. -/
theorem scaledLt_of_lt_exp {a ea b eb : Int} (he : eb < ea) (ha : 0 ≤ a) (h : b ≤ 2 * a) : scaledLt a ea b eb = false := by
  obtain ⟨n, hn⟩ : ∃ n : Nat, (ea - eb).toNat = n + 1 := ⟨(ea - eb).toNat - 1, by omega⟩
  have hpow : (1 : Int) ≤ 2 ^ n := one_le_pow₀ (by decide)
  simp only [scaledLt, min_eq_right he.le, sub_self, Int.toNat_zero, pow_zero, mul_one, hn, pow_succ, decide_eq_false_iff_not,
    not_lt]
  nlinarith

/-- A positive finite number is below the window exactly when its pattern is (R157). -/
theorem f32Lt_iWindowLow {x : Word} (hx : x.toNat < 0x7F800000) :
    f32Lt x Config.iWindowLow = decide (x.toNat < 0x3DCCCCCD) := by
  have hpos : decide (2 ^ 31 ≤ x.toNat) = false := decide_eq_false (by omega)
  rcases f32Value_toNat_cases x with ⟨_, _⟩ | ⟨_, _⟩ | ⟨hsub, h⟩ | ⟨hnorm, _, h⟩
  case inl | inr.inl => omega
  all_goals
    rw [f32Lt, h, hpos, f32Value_iWindowLow]
    simp only [signedMant, Bool.false_eq_true, if_false]
  · rw [scaledLt_of_exp_lt (by decide) (by decide) (by omega), decide_eq_true (by omega)]
  · rcases lt_trichotomy (x.toNat % 2 ^ 31 / 2 ^ 23) 123 with hb | hb | hb
    · rw [scaledLt_of_exp_lt (by omega) (by decide) (by omega), decide_eq_true (by omega)]
    · rw [hb, show ((123 : Nat) : Int) - 150 = -27 by rfl, scaledLt_same_exp, decide_eq_decide]
      omega
    · rw [scaledLt_of_lt_exp (by omega) (by omega) (by omega), decide_eq_false (by omega)]

/-- A positive finite number is above the window exactly when its pattern is (R157). -/
theorem f32Lt_iWindowHigh {x : Word} (hx : x.toNat < 0x7F800000) :
    f32Lt Config.iWindowHigh x = decide (0x46FA0000 < x.toNat) := by
  have hpos : decide (2 ^ 31 ≤ x.toNat) = false := decide_eq_false (by omega)
  rcases f32Value_toNat_cases x with ⟨_, _⟩ | ⟨_, _⟩ | ⟨hsub, h⟩ | ⟨hnorm, _, h⟩
  case inl | inr.inl => omega
  all_goals
    rw [f32Lt, h, hpos, f32Value_iWindowHigh]
    simp only [signedMant, Bool.false_eq_true, if_false]
  · rw [scaledLt_of_lt_exp (by decide) (by decide) (by omega), decide_eq_false (by omega)]
  · rcases lt_trichotomy (x.toNat % 2 ^ 31 / 2 ^ 23) 141 with hb | hb | hb
    · rw [scaledLt_of_lt_exp (by omega) (by decide) (by omega), decide_eq_false (by omega)]
    · rw [hb, show ((141 : Nat) : Int) - 150 = -9 by rfl, scaledLt_same_exp, decide_eq_decide]
      omega
    · rw [scaledLt_of_exp_lt (by omega) (by omega) (by omega), decide_eq_true (by omega)]

/-- A pattern is a NaN exactly when what follows its sign is above the infinity's (R159). -/
theorem f32Value_eq_nan_iff (x : Word) : f32Value x = .nan ↔ 0x7F800000 < x.toNat % 2 ^ 31 := by
  rcases f32Value_toNat_cases x with ⟨hx, h⟩ | ⟨hx, h⟩ | ⟨hx, h⟩ | ⟨_, hx, h⟩
  case inr.inl => simp only [h, hx]
  all_goals
    simp only [h, reduceCtorEq, false_iff]
    omega

/-- A pattern that is no NaN is inside the window exactly when neither comparison puts it outside (R157). -/
theorem inWindow_iff {x : Word} (hn : x.toNat % 2 ^ 31 ≤ 0x7F800000) :
    (f32Lt x Config.iWindowLow = false ∧ f32Lt Config.iWindowHigh x = false) ↔
      0x3DCCCCCD ≤ x.toNat ∧ x.toNat ≤ 0x46FA0000 := by
  by_cases hfin : x.toNat < 0x7F800000
  · rw [f32Lt_iWindowLow hfin, f32Lt_iWindowHigh hfin, decide_eq_false_iff_not, decide_eq_false_iff_not, not_lt, not_lt]
  · have hval : ¬(f32Lt x Config.iWindowLow = false ∧ f32Lt Config.iWindowHigh x = false) := by
      rintro ⟨hl, hh⟩
      have hnan : f32Value x ≠ .nan := by rw [Ne, f32Value_eq_nan_iff]; omega
      obtain ⟨m, e, hv⟩ := f32Value_inWindow x hnan hl hh
      rcases f32Value_toNat_cases x with ⟨_, h⟩ | ⟨_, h⟩ | ⟨_, h⟩ | ⟨_, _, h⟩
      all_goals
        simp only [hv, F32Value.finite.injEq, false_eq_decide_iff, reduceCtorEq] at h
      all_goals omega
    simp only [hval, false_iff]
    omega

/-! ### Rounding to 24 bits (R157) -/

/-- `q * 2^k` is the 24-bit number nearest `M`, ties to even: `M` lies in the binade of `2^23 * 2^k`, and `q` is within half a
unit. -/
structure RoundsTo24 (M q k : Nat) : Prop where
  binade_le : 2 ^ 23 * 2 ^ k ≤ M
  lt_binade : M < 2 ^ 24 * 2 ^ k
  le_above : 2 * M ≤ 2 * (q * 2 ^ k) + 2 ^ k
  below_le : 2 * (q * 2 ^ k) ≤ 2 * M + 2 ^ k
  even_of_tie : 2 * M = 2 * (q * 2 ^ k) + 2 ^ k ∨ 2 * (q * 2 ^ k) = 2 * M + 2 ^ k → q % 2 = 0

/-- The model's rounding is such a rounding: up past the half unit, and at the half unit from an odd quotient. -/
theorem roundsTo24_roundToEven24 {M : Nat} (hM : 2 ^ 23 ≤ M) :
    RoundsTo24 M (roundToEven24 M).1 (roundToEven24 M).2 := by
  have hlog : 23 ≤ M.log2 := (Nat.le_log2 (by omega)).2 hM
  have hle : 2 ^ 23 * 2 ^ (M.log2 + 1 - 24) ≤ M := by
    rw [← pow_add, show 23 + (M.log2 + 1 - 24) = M.log2 by omega]
    exact Nat.log2_self_le (by omega)
  have hlt : M < 2 ^ 24 * 2 ^ (M.log2 + 1 - 24) := by
    rw [← pow_add, show 24 + (M.log2 + 1 - 24) = M.log2 + 1 by omega]
    exact Nat.lt_log2_self
  have hdiv := Nat.div_add_mod M (2 ^ (M.log2 + 1 - 24))
  have hmod := Nat.mod_lt M (Nat.two_pow_pos (M.log2 + 1 - 24))
  rw [Nat.mul_comm] at hdiv
  simp only [roundToEven24]
  split
  next hup =>
    refine ⟨hle, hlt, ?_, ?_, ?_⟩
    all_goals
      simp only [Nat.add_mul]
      omega
  next hdown =>
    refine ⟨hle, hlt, ?_, ?_, ?_⟩
    all_goals
      dsimp only
      omega

namespace RoundsTo24

variable {M q k : Nat} (h : RoundsTo24 M q k)
include h

/-- Rounding down does not go past a multiple of the unit. -/
theorem le_of_mul_le {N : Nat} (hN : N * 2 ^ k ≤ M) : N ≤ q := by
  by_contra hlt
  have hmul : (q + 1) * 2 ^ k ≤ N * 2 ^ k := Nat.mul_le_mul_right _ (by omega)
  have hle := h.le_above
  have hpos := Nat.two_pow_pos k
  rw [Nat.add_mul] at hmul
  omega

/-- Rounding up does not go past a multiple of the unit either. -/
theorem le_of_le_mul {N : Nat} (hN : M ≤ N * 2 ^ k) : q ≤ N := by
  by_contra hlt
  have hmul : (N + 1) * 2 ^ k ≤ q * 2 ^ k := Nat.mul_le_mul_right _ (by omega)
  have hle := h.below_le
  have hpos := Nat.two_pow_pos k
  rw [Nat.add_mul] at hmul
  omega

/-- The distance from the rounded number is at most half a unit, and exactly that only for an even significand. -/
theorem abs_sub_le : 2 * |(M : ℚ) - q * 2 ^ k| ≤ 2 ^ k ∧ (2 * |(M : ℚ) - q * 2 ^ k| = 2 ^ k → q % 2 = 0) := by
  have habove : (2 : ℚ) * M ≤ 2 * (q * 2 ^ k) + 2 ^ k := by exact_mod_cast h.le_above
  have hbelow : (2 : ℚ) * (q * 2 ^ k) ≤ 2 * M + 2 ^ k := by exact_mod_cast h.below_le
  rcases abs_cases ((M : ℚ) - q * 2 ^ k) with ⟨habs, _⟩ | ⟨habs, _⟩
  all_goals
    rw [habs]
    refine ⟨by linarith, fun htie => h.even_of_tie ?_⟩
  · exact .inl (by exact_mod_cast (show (2 : ℚ) * M = 2 * (q * 2 ^ k) + 2 ^ k by linarith))
  · exact .inr (by exact_mod_cast (show (2 : ℚ) * (q * 2 ^ k) = 2 * M + 2 ^ k by linarith))

end RoundsTo24

/-! ### Truncation (R157) -/

/-- The integer part of `q * 2^e`. -/
theorem truncateToNat_eq_floor (q : Nat) (e : Int) : ((truncateToNat q e : Nat) : Int) = ⌊(q : ℚ) * 2 ^ e⌋ := by
  rw [truncateToNat]
  split
  next he =>
    obtain ⟨n, rfl⟩ := Int.eq_ofNat_of_zero_le he
    rw [zpow_natCast, Int.toNat_natCast, show (q : ℚ) * 2 ^ n = (q * 2 ^ n : Nat) by push_cast; rfl, Int.floor_natCast]
  next he =>
    obtain ⟨n, rfl⟩ : ∃ n : Nat, e = -n := ⟨(-e).toNat, by omega⟩
    rw [zpow_neg, zpow_natCast, neg_neg, Int.toNat_natCast, ← div_eq_mul_inv,
      show (2 : ℚ) ^ n = (2 ^ n : Nat) by push_cast; rfl, Rat.floor_natCast_div_natCast]
    rfl

/-- Truncating a rounded number keeps the even bounds that the exact number `M * 2^(-p)` has, where a unit is at most 2. -/
theorem RoundsTo24.truncate_bounds {M q k p : Nat} (h : RoundsTo24 M q k) (hk : k ≤ p + 1) {lo hi : Nat}
    (hlo : 2 * lo * 2 ^ p ≤ M) (hhi : M ≤ 2 * hi * 2 ^ p) :
    2 * lo ≤ truncateToNat q (k - p) ∧ truncateToNat q (k - p) ≤ 2 * hi := by
  rcases Nat.lt_or_ge p k with hpk | hkp
  · obtain rfl : k = p + 1 := by omega
    have htrunc : truncateToNat q ((p + 1 : Nat) - p) = q * 2 := by
      simp [truncateToNat]
    have hunit : ∀ n, 2 * n * 2 ^ p = n * 2 ^ (p + 1) := fun n => by ring
    rw [hunit] at hlo hhi
    have hl := h.le_of_mul_le hlo
    have hh := h.le_of_le_mul hhi
    omega
  · obtain ⟨n, rfl⟩ := Nat.exists_eq_add_of_le hkp
    have htrunc : truncateToNat q (k - (k + n : Nat)) = q / 2 ^ n := by
      rw [truncateToNat]
      split
      next he => rw [show n = 0 by omega]; simp
      next he => rw [show (-((k : Int) - (k + n : Nat))).toNat = n by omega]
    have hunit : ∀ c, 2 * c * 2 ^ (k + n) = 2 * c * 2 ^ n * 2 ^ k := fun c => by ring
    rw [hunit] at hlo hhi
    rw [htrunc, Nat.le_div_iff_mul_le (Nat.two_pow_pos n)]
    refine ⟨h.le_of_mul_le hlo, ?_⟩
    calc q / 2 ^ n ≤ 2 * hi * 2 ^ n / 2 ^ n := Nat.div_le_div_right (h.le_of_le_mul hhi)
      _ = 2 * hi := Nat.mul_div_cancel _ (Nat.two_pow_pos n)

/-! ### The I word inside the window (R157) -/

/-- Inside the window a pattern is a positive normal number; its last place has weight `2^(14 - p)`. -/
theorem f32Value_of_inWindow {i : Word} {p : Nat} (hlo : 0x3DCCCCCD ≤ i.toNat) (hhi : i.toNat ≤ 0x46FA0000)
    (hp : i.toNat / 2 ^ 23 + p = 164) : f32Value i = .finite false (2 ^ 23 + i.toNat % 2 ^ 23) (14 - p) := by
  rcases f32Value_toNat_cases i with ⟨_, _⟩ | ⟨_, _⟩ | ⟨_, _⟩ | ⟨_, _, h⟩
  case inr.inr.inr =>
    have hpos : decide (2 ^ 31 ≤ i.toNat) = false := decide_eq_false (by omega)
    have hexp : ((i.toNat % 2 ^ 31 / 2 ^ 23 : Nat) : Int) - 150 = 14 - p := by omega
    rw [h, hpos, hexp]
  all_goals
    exfalso
    omega

/-- The product with the scale, rounded and truncated (R157). -/
theorem scaledAndTruncated_of_finite {x : Word} {m mk : Nat} {e ek : Int} (h : f32Value x = .finite false m e)
    (hk : f32Value Config.iScale = .finite false mk ek) :
    scaledAndTruncated x =
      BitVec.ofNat 32 (truncateToNat (roundToEven24 (m * mk)).1 (e + ek + (roundToEven24 (m * mk)).2)) := by
  simp only [scaledAndTruncated, h, hk, f32Product]

theorem iWord_of_inWindow {i : Word} {p : Nat} (hlo : 0x3DCCCCCD ≤ i.toNat) (hhi : i.toNat ≤ 0x46FA0000)
    (hp : i.toNat / 2 ^ 23 + p = 164) :
    iWord i = BitVec.ofNat 32 (truncateToNat (roundToEven24 ((2 ^ 23 + i.toNat % 2 ^ 23) * 16384000)).1
      ((roundToEven24 ((2 ^ 23 + i.toNat % 2 ^ 23) * 16384000)).2 - p)) := by
  have hvalue := f32Value_of_inWindow hlo hhi hp
  obtain ⟨hbelow, habove⟩ := (inWindow_iff (x := i) (by omega)).2 ⟨hlo, hhi⟩
  rcases iWord_cases i with ⟨hnan, _⟩ | ⟨_, hout, _⟩ | ⟨_, _, _, h⟩
  · simp [hvalue] at hnan
  · simp [hbelow, habove] at hout
  · rw [h, scaledAndTruncated_of_finite hvalue f32Value_iScale, show (14 : Int) - p + -14 = -p by omega, neg_add_eq_sub]

/-- Inside the window, with `2^(-p)` the unit of the exact product `M`: the product is rounded and truncated, and lies between
100 and 32000000. -/
theorem iWord_inWindow {i : Word} (hlo : 0x3DCCCCCD ≤ i.toNat) (hhi : i.toNat ≤ 0x46FA0000) :
    ∃ M p q k : Nat, M = (2 ^ 23 + i.toNat % 2 ^ 23) * 16384000 ∧ i.toNat / 2 ^ 23 + p = 164 ∧ RoundsTo24 M q k ∧
      iWord i = BitVec.ofNat 32 (truncateToNat q (k - p)) ∧
      100 ≤ truncateToNat q (k - p) ∧ truncateToNat q (k - p) ≤ 32000000 := by
  obtain ⟨p, hp⟩ : ∃ p, i.toNat / 2 ^ 23 + p = 164 := ⟨164 - i.toNat / 2 ^ 23, by omega⟩
  have hlow : 2 * 50 * 2 ^ p ≤ (2 ^ 23 + i.toNat % 2 ^ 23) * 16384000 := by
    rcases Nat.lt_or_ge p 41 with hlt | hge
    · have := Nat.pow_le_pow_right (n := 2) (by decide) (show p ≤ 40 by omega)
      omega
    · rw [show p = 41 by omega]
      omega
  have hhigh : (2 ^ 23 + i.toNat % 2 ^ 23) * 16384000 ≤ 2 * 16000000 * 2 ^ p := by
    rcases Nat.lt_or_ge 23 p with hlt | hge
    · have := Nat.pow_le_pow_right (n := 2) (by decide) (show 24 ≤ p by omega)
      omega
    · rw [show p = 23 by omega]
      omega
  have hrounds := roundsTo24_roundToEven24 (M := (2 ^ 23 + i.toNat % 2 ^ 23) * 16384000) (by omega)
  have hword := iWord_of_inWindow hlo hhi hp
  generalize roundToEven24 ((2 ^ 23 + i.toNat % 2 ^ 23) * 16384000) = r at hrounds hword
  have hk : r.2 ≤ p + 1 := by
    have hle := hrounds.binade_le
    have : 2 ^ r.2 < 2 ^ 25 := by omega
    have := (Nat.pow_lt_pow_iff_right (by decide)).1 this
    omega
  obtain ⟨hmin, hmax⟩ := hrounds.truncate_bounds hk hlow hhigh
  exact ⟨_, p, r.1, r.2, rfl, hp, hrounds, hword, hmin, hmax⟩

/-- Settles O28: a NaN by its pattern, the patterns outside by the two comparisons, those inside by the bounds on the product. -/
theorem gainIWordFallbacksByPattern : Obligations.GainIWordFallbacksByPattern := by
  intro i
  refine ⟨fun hnan => ?_, fun hn hout => ?_, fun hlo hhi => ?_⟩
  · rw [← f32Value_eq_nan_iff] at hnan
    rcases iWord_cases i with ⟨_, h⟩ | ⟨hn, _⟩ | ⟨hn, _⟩
    · exact h
    all_goals exact absurd hnan hn
  · rcases iWord_cases i with ⟨hnan, _⟩ | ⟨_, _, h⟩ | ⟨_, hl, hh, _⟩
    · rw [f32Value_eq_nan_iff] at hnan
      omega
    · exact h
    · obtain ⟨_, _⟩ := (inWindow_iff hn).1 ⟨hl, hh⟩
      omega
  · obtain ⟨_, _, _, _, _, _, _, hword, hmin, hmax⟩ := iWord_inWindow hlo hhi
    rw [hword, BitVec.toNat_ofNat, Nat.mod_eq_of_lt (by omega)]
    exact ⟨hmin, hmax⟩

/-- Settles O29: `x * 1000` is the exact product `M` in units of `2^(-p)`, so its rounding is `M`'s, scaled. -/
theorem gainIWordIsTruncatedBinary32Product : Obligations.GainIWordIsTruncatedBinary32Product := by
  intro i x hlo hhi hx
  obtain ⟨M, p, q, k, hM, hp, hrounds, hword, _, hmax⟩ := iWord_inWindow hlo hhi
  obtain ⟨hnear, heven⟩ := hrounds.abs_sub_le
  have hu : (0 : ℚ) < 2 ^ (-p : ℤ) := by positivity
  have hunit : (2 : ℚ) ^ ((k : ℤ) - p) = 2 ^ k * 2 ^ (-p : ℤ) := by
    rw [sub_eq_add_neg, zpow_add₀ (by norm_num), zpow_natCast]
  have hx1000 : x * 1000 = M * 2 ^ (-p : ℤ) := by
    rw [hx, show ((i.toNat / 2 ^ 23 : Nat) : ℤ) - 150 = 14 + (-p : ℤ) by omega, zpow_add₀ (by norm_num), hM]
    push_cast
    ring
  have hdist : |x * 1000 - q * 2 ^ ((k : ℤ) - p)| = |(M : ℚ) - q * 2 ^ k| * 2 ^ (-p : ℤ) := by
    rw [hx1000, hunit, ← mul_assoc, ← sub_mul, abs_mul, abs_of_pos hu]
  refine ⟨q, k - p, ?_, ?_, ?_, fun htie => heven ?_, ?_⟩
  · rw [hx1000, hunit, ← mul_assoc]
    exact mul_le_mul_of_nonneg_right (by exact_mod_cast hrounds.binade_le) hu.le
  · rw [hx1000, hunit, ← mul_assoc]
    exact mul_lt_mul_of_pos_right (by exact_mod_cast hrounds.lt_binade) hu
  · rw [hdist, hunit, ← mul_assoc]
    exact mul_le_mul_of_nonneg_right hnear hu.le
  · rw [hdist, hunit, ← mul_assoc] at htie
    exact mul_right_cancel₀ hu.ne' htie
  · rw [← truncateToNat_eq_floor, hword, BitVec.toNat_ofNat, Nat.mod_eq_of_lt (by omega)]

end Sys2Proof.Machine
end
